-- ==== Sys2Proof/Word.lean ====
section
/-!
DEFINITION. Word.lean: the word types of the armor decoder block (spec/00_scope.md rule R7,
spec/10_state.md rule R10). Words are numbered LSB-0.
-/

namespace Sys2Proof

/-- A byte: an armor character code, a byte of the byte image, a character of the text result. -/
abbrev Byte := BitVec 8

/-- A command word, `CMD_BITS` = 16 bits (30_encoding.md R44). -/
abbrev CommandWord := BitVec 16

/-- The operand field `arg` of a command word, bits 11 to 0 (30_encoding.md R44). -/
abbrev Operand := BitVec 12

/-- A 16-bit counter register: `NCH`, `LEN`, `POS` (10_state.md R10). -/
abbrev Counter := BitVec 16

/-- A 32-bit word, `XLEN` = 32: `RES`, `EINFO`, the value of an OK response. -/
abbrev Word := BitVec 32

end Sys2Proof
end

