-- ==== Sys2Proof/Syntax.lean ====
section
/-!
DEFINITION. Syntax.lean: the nine commands of AISARM command set version 1.0
(00_scope.md R2, 30_encoding.md R45 and R46), one constructor per row of spec/opcode_table.json.
An operand is held as the 12-bit field `arg` it stands in (R44); WellFormed.lean says which of its
bits each command uses (R45).
-/

namespace Sys2Proof

/-- A decoded command (30_encoding.md R46, R47). -/
inductive Instr where
  /-- CLR: start a new message (40_armor.md R63). -/
  | clr
  /-- PUSHC c: push one armor character, `c` its ASCII code (R64). -/
  | pushc (c : Operand)
  /-- SEAL f: end of the text, `f` the fill-bit count (R66). -/
  | sealf (f : Operand)
  /-- RDB i: read byte `i` of the byte image (R68). -/
  | rdb (i : Operand)
  /-- REM: remaining bits (41_cursor.md R73). -/
  | rem
  /-- TAKEU w: take an unsigned field of `w` bits (R74). -/
  | takeu (w : Operand)
  /-- TAKES w: take a signed field of `w` bits (R75). -/
  | takes (w : Operand)
  /-- TAKET w: take a text field of `w` bits (42_text.md R84). -/
  | taket (w : Operand)
  /-- SIXA v: map one sixbit value to its ASCII code (R87). -/
  | sixa (v : Operand)
  deriving DecidableEq, Repr

/-- Why a word is not a command (30_encoding.md R49). The machine treats both alike: the word
raises IllegalCommand. -/
inductive Illegal where
  /-- `op` is 9 to 15. -/
  | reservedOpcode (op : BitVec 4)
  /-- `op` is 0 to 8 and a must-be-zero bit of R45 is 1. -/
  | mustBeZero (op : BitVec 4)
  deriving DecidableEq, Repr

/-- The row's mnemonic in spec/opcode_table.json. -/
def Instr.mnemonic : Instr → String
  | .clr => "CLR"
  | .pushc _ => "PUSHC"
  | .sealf _ => "SEAL"
  | .rdb _ => "RDB"
  | .rem => "REM"
  | .takeu _ => "TAKEU"
  | .takes _ => "TAKES"
  | .taket _ => "TAKET"
  | .sixa _ => "SIXA"

end Sys2Proof
end

