-- ==== Sys2Proof/WellFormed.lean ====
section
/-!
DEFINITION. WellFormed.lean: the must-be-zero rule of 30_encoding.md R45. A term of `Instr` is well
formed when its operand fits the command's field, that is when the MBZ bits of `arg` are 0. Values
that fit the field but are not "legal values" of R45 (SEAL 7, TAKEU 63, ...) are well formed: R47 says
such a word is still that command, and it faults when executed.
-/

namespace Sys2Proof

/-- The width of the command's operand field at the low end of `arg` (R45); 0 for no operand. -/
def Instr.operandBits : Instr → Nat
  | .clr => 0
  | .pushc _ => 8
  | .sealf _ => 3
  | .rdb _ => 12
  | .rem => 0
  | .takeu _ => 6
  | .takes _ => 6
  | .taket _ => 8
  | .sixa _ => 6

/-- The 12 bits of `arg`: the operand, or 0 for a command without one (R45). -/
def Instr.operand : Instr → Operand
  | .clr => 0
  | .pushc c => c
  | .sealf f => f
  | .rdb i => i
  | .rem => 0
  | .takeu w => w
  | .takes w => w
  | .taket w => w
  | .sixa v => v

/-- R45: the operand fits its field; the bits of `arg` above the field are 0. -/
def Instr.wellFormed (i : Instr) : Bool := i.operand.toNat < 2 ^ i.operandBits

end Sys2Proof
end

