-- ==== Sys2Proof/Decode.lean ====
section
/-!
DEFINITION. Decode.lean: the decoder of 30_encoding.md R47, total on all 65536 words and rejecting by
name (R49); the encoder of R46 and R52; the opcode map of R46 as data.
-/

namespace Sys2Proof

/-- `cmd[15:12]` (R44). -/
def opField (w : CommandWord) : BitVec 4 := w.extractLsb' 12 4

/-- `cmd[11:0]` (R44). -/
def argField (w : CommandWord) : Operand := w.extractLsb' 0 12

/-- `arg[11:n]` is 0: the must-be-zero test of a command whose operand has `n` bits (R45, R47). -/
def mbzClear (n : Nat) (arg : Operand) : Bool := arg.toNat >>> n == 0

/-- The decoding procedure of R47. -/
def decode (w : CommandWord) : Except Illegal Instr :=
  let arg := argField w
  let accept (bits : Nat) (i : Instr) : Except Illegal Instr :=
    if mbzClear bits arg then .ok i else .error (.mustBeZero (opField w))
  match (opField w).toNat with
  | 0 => accept 0 .clr
  | 1 => accept 8 (.pushc arg)
  | 2 => accept 3 (.sealf arg)
  | 3 => accept 12 (.rdb arg)
  | 4 => accept 0 .rem
  | 5 => accept 6 (.takeu arg)
  | 6 => accept 6 (.takes arg)
  | 7 => accept 8 (.taket arg)
  | 8 => accept 6 (.sixa arg)
  | _ => .error (.reservedOpcode (opField w))

/-- The opcode of each command (R46). -/
def Instr.opcode : Instr → BitVec 4
  | .clr => 0
  | .pushc _ => 1
  | .sealf _ => 2
  | .rdb _ => 3
  | .rem => 4
  | .takeu _ => 5
  | .takes _ => 6
  | .taket _ => 7
  | .sixa _ => 8

/-- The word of a command: `op` in bits 15:12, `arg` in bits 11:0 (R44, R46); on a well-formed
command it is R52's `(op << 12) | operand`. -/
def encode (i : Instr) : CommandWord := i.opcode ++ i.operand

/-- One row of the opcode map of R46. -/
structure OpcodeRow where
  mnemonic : String
  mask : CommandWord
  pattern : CommandWord
  deriving DecidableEq, Repr

/-- The opcode map of R46, row by row, written out from the table (not computed from `decode`). -/
def opcodeMap : List OpcodeRow :=
  [⟨"CLR", 0xFFFF, 0x0000⟩, ⟨"PUSHC", 0xFF00, 0x1000⟩, ⟨"SEAL", 0xFFF8, 0x2000⟩,
   ⟨"RDB", 0xF000, 0x3000⟩, ⟨"REM", 0xFFFF, 0x4000⟩, ⟨"TAKEU", 0xFFC0, 0x5000⟩,
   ⟨"TAKES", 0xFFC0, 0x6000⟩, ⟨"TAKET", 0xFF00, 0x7000⟩, ⟨"SIXA", 0xFFC0, 0x8000⟩]

/-- `(word & mask) == match` of R46. -/
def OpcodeRow.matchesWord (r : OpcodeRow) (w : CommandWord) : Bool := w &&& r.mask == r.pattern

/-- The 16-bit word that the host names by its low `nbits` bits, the bits above being 0. A command
is one word and is handed to the block whole, so no byte order arises (R44, R51). -/
def tableWord (nbits w : Nat) : CommandWord := BitVec.ofNat 16 (w % 2 ^ nbits)

/-- The command the decoder reads from the table's word; none where it refuses. -/
def decodeTableWord (nbits w : Nat) : Option Instr := (decode (tableWord nbits w)).toOption

end Sys2Proof
end

