-- ==== Sys2Proof/Config.lean ====
section
/-!
DEFINITION. Config.lean: the implementation parameters of 00_scope.md rules R4 and R5. All but
`CAP_BITS` have the one value the rule gives; `CAP_BITS` is open.
-/

namespace Sys2Proof

/-- R4 `CHAR_BITS`: bits contributed by one armor character. -/
@[simp] abbrev Config.charBits : Nat := 6

/-- R4 `FILL_MAX`: largest legal fill-bit count. -/
@[simp] abbrev Config.fillMax : Nat := 5

/-- R4 `W_MAX`: largest width of one integer extraction. -/
@[simp] abbrev Config.wMax : Nat := 32

/-- R4 `W_MIN_S`: smallest width of a signed extraction. (`W_MIN_U` is 0: no test is needed.) -/
@[simp] abbrev Config.wMinSigned : Nat := 1

/-- R4 `TXT_MAX`: largest number of characters one TAKET produces. -/
@[simp] abbrev Config.txtMax : Nat := 42

/-- The free value behind the open parameter `CAP_BITS` (R5): it has no body, so nothing about it
can be proved and a claim holds for every capacity the rule allows (log entry 1). -/
opaque Config.capacityChoice : Nat

/-- `CAP_BITS` (R4, R5): "a multiple of 6 with 168 ≤ `CAP_BITS` ≤ 32766". Every value the rule
allows, and no other, is `6 * (28 + k)` for one `k < 5434`. That the instances of a system (60_exceptions.md
R107) all have this one capacity is the model's choice (DESIGN CHOICE, log entry 18). -/
def Config.capBits : Nat := (Config.capacityChoice % 5434 + 28) * Config.charBits

/-- The bounds R5 gives, and all that is known of `CAP_BITS`. -/
theorem Config.capBits_bounds :
    168 ≤ Config.capBits ∧ Config.capBits ≤ 32766 ∧ Config.capBits % 6 = 0 := by
  simp only [Config.capBits, Config.charBits]
  omega

end Sys2Proof
end

