-- ==== Sys2Proof/Machine/State.lean ====
section
/-!
DEFINITION. Machine/State.lean: the state of one block (10_state.md R10), the client's side of its
command port (70_reset_and_hazards.md section 6), the reset values (10_state.md R23) and the reasons a
step can stop. The block's own faults (60_exceptions.md R91) are NOT stops: the machine goes on, in
phase FAULT, so they are values of `ERR`, not constructors of `Fault`.
-/

namespace Sys2Proof.Machine

/-- `PHASE`, the life-cycle phase (10_state.md R13). -/
inductive Phase where
  /-- FILL: the buffer is being built. -/
  | fill
  /-- READY: the buffer is sealed, the cursor is open. -/
  | ready
  /-- FAULT: a command has failed; only CLR (or reset) has an effect. -/
  | fault
  deriving DecidableEq, Repr

/-- The values of `ERR` (10_state.md R14, 60_exceptions.md R91); codes 7 to 15 are never produced
(93_implementation_defined.md U26). `Flags.lean` gives the 4-bit codes. -/
inductive FaultCode where
  /-- Code 0, None: no fault latched. -/
  | none
  /-- Code 1: PUSHC of a byte outside the armor alphabet (R94). -/
  | invalidArmorCharacter
  /-- Code 2: a take of more bits than remain (R95). -/
  | insufficientBits
  /-- Code 3: the word is not a command (R96). -/
  | illegalCommand
  /-- Code 4: the command is not legal in the phase (R97). -/
  | sequenceError
  /-- Code 5: the operand value is out of its legal range (R98). -/
  | invalidOperand
  /-- Code 6: PUSHC beyond `CAP_BITS` (R98). -/
  | capacityExceeded
  deriving DecidableEq, Repr

/-- What the client can do to the block (70_reset_and_hazards.md section 6); nothing else can be
done to it. -/
inductive Input where
  /-- The reset event (R109); a model takes it as one more input symbol (R110). -/
  | reset
  /-- One 16-bit word, a command or not (R44). -/
  | command (w : CommandWord)
  deriving DecidableEq, Repr

/-- What the block returns for one command (30_encoding.md R48). -/
inductive Response where
  /-- `OK(value)`: the command completed; `value` is `RES` after it. -/
  | ok (value : Word)
  /-- TAKET's `OK(value)`, which carries the string `TXT[0..TLEN)` in addition. -/
  | okText (value : Word) (text : List Byte)
  /-- `ERR(code)`: a fault, or the block was already in FAULT; `code` is `ERR` after the command. -/
  | err (code : FaultCode)
  deriving DecidableEq, Repr

/-- The block's only memory, `BITS` (10_state.md R18): a bit string, bit address 0 first
(20_memory.md R28). The valid addresses are exactly those below its length, so the list is its own
canonical form: equal memories are equal lists (log entry 5). -/
abbrev Memory := List Bool

/-- R10: `|BITS| <= CAP_BITS`. Every memory operation keeps it (Laws/Memory.lean). -/
def Memory.wf (m : Memory) : Bool := m.length ≤ Config.capBits

/-- The state of one block instance (10_state.md R10), then the client's side of the port. -/
structure State where
  /-- `PHASE` (R13). -/
  phase : Phase
  /-- `BITS`, the bit buffer (R18). -/
  bits : Memory
  /-- `NCH`, armor characters accepted since reset or CLR (R16). -/
  nch : Counter
  /-- `LEN`, the valid bit length of the sealed buffer (R16). -/
  len : Counter
  /-- `POS`, the bit cursor; `CUR_BYTE` and `CUR_BIT` are views of it (R19). -/
  pos : Counter
  /-- `RES`, the result register (R11). -/
  res : Word
  /-- `TXT[0..41]`, the text result file (R17). -/
  txt : Vector Byte Config.txtMax
  /-- `TLEN`, the length of the text result, 6 bits (R17). -/
  tlen : BitVec 6
  /-- `ERR`, the latched fault code (R14). -/
  err : FaultCode
  /-- `EINFO`, the latched fault information (R15). -/
  einfo : Word
  /-- What the client is still to send, next one first (log entry 2). -/
  pending : List Input
  /-- The responses returned so far, oldest first (R25, R48, log entry 3). -/
  responses : List Response
  deriving DecidableEq, Repr

/-- The reset values of 10_state.md R23. No input is pending and no response has been given. -/
def State.reset : State where
  phase := .fill
  bits := []
  nch := 0
  len := 0
  pos := 0
  res := 0
  txt := Vector.replicate Config.txtMax 0
  tlen := 0
  err := .none
  einfo := 0
  pending := []
  responses := []

/-- Why the model stops. No run from reset stops so. -/
inductive Fault where
  /-- Raised by RDB, TAKEU, TAKES and TAKET when a bit below `LEN` does not exist in `BITS`
  (`LEN > |BITS|` in READY, which 10_state.md R20 rules out of every reachable state): "Addresses at
  or beyond the valid length name nothing" (20_memory.md R28) and `MemRead` is defined on existing
  bits only (R33). Safe (log entry 6). -/
  | absentBit
  deriving DecidableEq, Repr

/-- Why the model refuses. -/
inductive Refusal where
  /-- Raised by `exec` for a command that has no meaning yet; no arm does so. Safe. -/
  | notModelled (mnemonic : String)
  deriving DecidableEq, Repr

end Sys2Proof.Machine
end

