-- ==== Sys2Proof/Machine/Bits.lean ====
section
/-!
DEFINITION. Machine/Bits.lean: the bit-string notation of 00_scope.md R7: `val`, `bits_n`, substrings,
`ceil8`, and the sign extension `sext_32`. One bit order only: first bit most significant (20_memory.md R30).
-/

namespace Sys2Proof.Machine

/-- `val(s)`: the unsigned value of a bit string, first bit most significant (R7). -/
def val : List Bool → Nat
  | [] => 0
  | b :: rest => b.toNat * 2 ^ rest.length + val rest

/-- `bits_n(v)`: the bit string of length `n` with value `v`, most significant bit first (R7). -/
def bitsOf : Nat → Nat → List Bool
  | 0, _ => []
  | n + 1, v => v.testBit n :: bitsOf n v

/-- `s[a .. a+n)` (R7). -/
def slice (s : List Bool) (a n : Nat) : List Bool := (s.drop a).take n

/-- `ceil8(n) = (n + 7) div 8` (R7). -/
def ceil8 (n : Nat) : Nat := (n + 7) / 8

/-- `zext_32(v)` (R7). -/
def zext32 (v : Nat) : Word := BitVec.ofNat 32 v

/-- `sext_32(v, w)`: the low `w` bits are `v`, the bits above all equal bit `w-1` of `v` (R7). -/
def sext32 (v w : Nat) : Word := (BitVec.ofNat w v).signExtend 32

/-- `signed_w(v)`: the two's-complement reading of a `w`-bit field (R7). -/
def signedOf (w v : Nat) : Int := if v < 2 ^ (w - 1) then v else (v : Int) - 2 ^ w

end Sys2Proof.Machine
end

