-- ==== Sys2Proof/Machine/Operands.lean ====
section
/-!
DEFINITION. Machine/Operands.lean: the legal operand values of 30_encoding.md R45 and
60_exceptions.md R98, and the two 6-bit alphabets (30_encoding.md R55 and R57).
-/

namespace Sys2Proof.Machine

/-- The armor alphabet `Sixbit(c)` (R55); `none` is the rule's "invalid" (R56). -/
def sixbit (c : Nat) : Option Nat :=
  if 48 ≤ c ∧ c ≤ 87 then some (c - 48)
  else if 96 ≤ c ∧ c ≤ 119 then some (c - 56)
  else none

/-- The text alphabet `Ascii6(n)` (R57); not the inverse of `sixbit` (R58, 90_conflicts.md C1). -/
def ascii6 (n : Nat) : Nat := if n ≤ 31 then 64 + n else n

/-- SEAL: `f` is at most 5 and at most the data there is (R66, R98). -/
def sealOperandOk (f : Operand) (nch : Counter) : Bool :=
  f.toNat ≤ Config.fillMax && f.toNat ≤ Config.charBits * nch.toNat

/-- RDB: `i` is below `NBYTES = ceil8(LEN)` (R68, R98). -/
def rdbOperandOk (i : Operand) (len : Counter) : Bool := i.toNat < ceil8 len.toNat

/-- TAKEU: 0 to 32 (R74, R98). -/
def takeuOperandOk (w : Operand) : Bool := w.toNat ≤ Config.wMax

/-- TAKES: 1 to 32 (R75, R98). -/
def takesOperandOk (w : Operand) : Bool :=
  Config.wMinSigned ≤ w.toNat && w.toNat ≤ Config.wMax

/-- TAKET: a multiple of 6, at most 252 (R84, R98). -/
def taketOperandOk (w : Operand) : Bool :=
  w.toNat % Config.charBits == 0 && w.toNat ≤ Config.charBits * Config.txtMax

end Sys2Proof.Machine
end

