-- ==== Sys2Proof/Machine/Flags.lean ====
section
/-!
DEFINITION. Machine/Flags.lean: the block's status. There are no condition codes (10_state.md R26); the
only status a command's legality depends on is `PHASE` (R13), and the only latch is `ERR` (R14).
-/

namespace Sys2Proof.Machine

/-- The 2-bit coding of `PHASE` (10_state.md, summary table); no command returns it. -/
def Phase.code : Phase → BitVec 2
  | .fill => 0b00
  | .ready => 0b01
  | .fault => 0b10

/-- The 4-bit code of `ERR` (60_exceptions.md R91). -/
def FaultCode.code : FaultCode → BitVec 4
  | .none => 0
  | .invalidArmorCharacter => 1
  | .insufficientBits => 2
  | .illegalCommand => 3
  | .sequenceError => 4
  | .invalidOperand => 5
  | .capacityExceeded => 6

/-- The phases a command is legal in (10_state.md R13; "legal in" of each command's rule). -/
def legalIn : Instr → Phase → Bool
  | .clr, _ => true
  | .pushc _, p => p == .fill
  | .sealf _, p => p == .fill
  | .rdb _, p => p == .ready
  | .rem, p => p == .ready
  | .takeu _, p => p == .ready
  | .takes _, p => p == .ready
  | .taket _, p => p == .ready
  | .sixa _, p => p == .fill || p == .ready

end Sys2Proof.Machine
end

