-- ==== Sys2Proof/Machine/Ops.lean ====
section
/-!
DEFINITION. Machine/Ops.lean: the operations the meanings share: the response (30_encoding.md R48), fault
entry and the sticky fault (60_exceptions.md R99, R102), the return from it (R103), the common checks of
R101, and the reads and writes of the buffer (20_memory.md).
-/

namespace Sys2Proof.Machine

/-- The outcome of a command. -/
abbrev Result := Host.Outcome State Fault Refusal

/-! ## Responses -/

/-- `TXT[0..TLEN)`, the block's text output (10_state.md R17, 30_encoding.md R48). -/
def State.text (s : State) : List Byte := s.txt.toList.take s.tlen.toNat

/-- `respond OK(v)`: the value is the content of `RES` after the command (R48). -/
def State.respondOk (s : State) : State := { s with responses := s.responses ++ [.ok s.res] }

/-- TAKET's OK response, which carries the text too (R48, R84). -/
def State.respondText (s : State) : State :=
  { s with responses := s.responses ++ [.okText s.res s.text] }

/-- `respond ERR(ERR)`: the code is `ERR` after the command (R48). -/
def State.respondErr (s : State) : State := { s with responses := s.responses ++ [.err s.err] }

/-! ## Taking a fault, and the return from it -/

/-- Fault entry, `raise F(info)` (60_exceptions.md R99): exactly these three registers are written
and the response is `ERR(code(F))`. -/
def State.raise (s : State) (code : FaultCode) (info : Word) : State :=
  { s with err := code, einfo := info, phase := .fault }.respondErr

/-- The effect of CLR, and of reset, on the block (40_armor.md R63, 70_reset_and_hazards.md R109 and
R111); it is also the only return from FAULT (60_exceptions.md R103). The port is not the block's. -/
def State.cleared (s : State) : State :=
  { s with
    phase := .fill, bits := [], nch := 0, len := 0, pos := 0, res := 0, tlen := 0
    txt := Vector.replicate Config.txtMax 0, err := .none, einfo := 0 }

/-- The whole effect of the reset event: it returns nothing (R109, R111). -/
def takeReset (s : State) : Result := .next s.cleared

/-- The block does nothing while the client sends nothing (00_scope.md R6, log entry 4). -/
def idle (s : State) : Result := .next s

/-! ## The common checks -/

/-- `zext_32(cmd)`: what EINFO records for a fault about the word itself (10_state.md R15). A command
has one word, `encode i` (log entry 9). -/
def commandInfo (i : Instr) : Word := (encode i).setWidth 32

/-- Checks 0 and 2 of 60_exceptions.md R101 for a decoded command other than CLR: in FAULT nothing
changes and the answer is ERR (R102); out of its phase it raises SequenceError (R97). -/
def checked (i : Instr) (s : State) (body : Result) : Result :=
  if s.phase = .fault then .next s.respondErr
  else if legalIn i s.phase then body
  else .next (s.raise .sequenceError (commandInfo i))

/-- Checks 0 and 1 of R101 for a word that is not a command: ignored in FAULT (R102), otherwise
IllegalCommand, EINFO the word (R96). -/
def illegalCommand (w : CommandWord) (s : State) : Result :=
  if s.phase = .fault then .next s.respondErr
  else .next (s.raise .illegalCommand (w.setWidth 32))

/-- Check 3 of R101, for every command with a restricted operand: InvalidOperand, EINFO the word
(R98). -/
def withOperand (i : Instr) (legal : Bool) (s : State) (body : Result) : Result :=
  if legal then body else .next (s.raise .invalidOperand (commandInfo i))

/-! ## The buffer -/

/-- `MemWrite(|BITS|, 6, v)`: the append, the only write there is (20_memory.md R35). -/
def Memory.append (m : Memory) (v : Nat) : Memory := m ++ bitsOf Config.charBits v

/-- `BITS[0 .. n)`: SEAL's truncation (40_armor.md R66). -/
def Memory.truncate (m : Memory) (n : Nat) : Memory := m.take n

/-- `Extract(a, w) = MemRead(a, w)` (20_memory.md R33, 41_cursor.md R76). -/
def extract (m : Memory) (a w : Nat) : Nat := val (slice m a w)

/-- The bits `[a .. a+n)` exist. -/
def Memory.holds (m : Memory) (a n : Nat) : Bool := a + n ≤ m.length

/-- `PadBit(a)` (20_memory.md R31). -/
def padBit (m : Memory) (len a : Nat) : Bool := a < len && m.getD a false

/-- `ByteAt(i)`: bit `7-k` of the byte is `PadBit(8i + k)`, for `k` in 0 to 7 (20_memory.md R31). -/
def byteAt (m : Memory) (len i : Nat) : Byte :=
  BitVec.ofNat 8 (val ((List.range 8).map fun k => padBit m len (8 * i + k)))

/-- RDB's read of byte `i`: the bits below `LEN` that it shows must exist (log entry 6). -/
def State.readByte (s : State) (i : Nat) : Option Byte :=
  if s.bits.holds 0 (min (8 * i + 8) s.len.toNat) then some (byteAt s.bits s.len.toNat i) else none

/-- `remaining_bits`: `LEN - POS`, the exact count of unconsumed bits (41_cursor.md R73). -/
def State.remaining (s : State) : Nat := s.len.toNat - s.pos.toNat

/-- `RES <- v`. -/
def State.setRes (s : State) (v : Word) : State := { s with res := v }

/-- `POS <- POS + w` (41_cursor.md R78). -/
def State.advance (s : State) (w : Nat) : State := { s with pos := s.pos + BitVec.ofNat 16 w }

/-! ## Text -/

/-- The sixbit groups `g_0 .. g_(n-1)` at bit address `a` (42_text.md R83). -/
def groups (m : Memory) (a : Nat) : Nat → List Nat
  | 0 => []
  | n + 1 => extract m a 6 :: groups m (a + 6) n

/-- Trailing `'@'` (64) removed, nothing else (42_text.md R85). -/
def trim (cs : List Byte) : List Byte := (cs.reverse.dropWhile (· == 64)).reverse

/-- `DecodeText(a, w)` for `w = 6n` (42_text.md R83). -/
def decodeText (m : Memory) (a w : Nat) : List Byte :=
  trim ((groups m a (w / Config.charBits)).map fun g => BitVec.ofNat 8 (ascii6 g))

/-- The text file that holds a string, with zeros after it (10_state.md R17, 42_text.md R84). -/
def textFile (text : List Byte) : Vector Byte Config.txtMax :=
  ⟨⟨(text ++ List.replicate Config.txtMax 0).take Config.txtMax⟩, by simp⟩

/-- `TXT[0..t) <- s`, `TXT[t..42) <- 0`, `TLEN <- t` (42_text.md R84). -/
def State.setText (s : State) (text : List Byte) : State :=
  { s with tlen := BitVec.ofNat 6 text.length, txt := textFile text }

/-! ## Takes -/

/-- A take of `w` bits at the cursor (TAKEU, TAKES, TAKET), the checks in the order of R101: phase,
operand, InsufficientBits with EINFO the width (60_exceptions.md R95, 41_cursor.md R79). Then the
field is read, the cursor advances by the full width (R78), and `finish` writes the results and
responds. -/
def take (i : Instr) (w : Operand) (legal : Bool) (finish : State → State) (s : State) : Result :=
  checked i s <| withOperand i legal s <|
    if w.toNat > s.remaining then .next (s.raise .insufficientBits (w.setWidth 32))
    else if s.bits.holds s.pos.toNat w.toNat then .next ((finish s).advance w.toNat)
    else .fault .absentBit

end Sys2Proof.Machine
end

