-- ==== Sys2Proof/Machine/Armor.lean ====
section
/-!
DEFINITION. Machine/Armor.lean: the armor decoder commands CLR, PUSHC, SEAL, RDB (spec/40_armor.md).
-/

namespace Sys2Proof.Machine

/-- CLR (R63): legal in every phase, the only command with an effect in FAULT. -/
def execClr (s : State) : Result := .next s.cleared.respondOk

/-- PUSHC c (R64, R65): the character is validated, then the capacity tested, then the six bits are
appended. `RES` is not written: the response repeats it. -/
def execPushc (c : Operand) (s : State) : Result :=
  checked (.pushc c) s <|
    match sixbit c.toNat with
    | none => .next (s.raise .invalidArmorCharacter (c.setWidth 32))
    | some v =>
      if Config.charBits * (s.nch.toNat + 1) > Config.capBits then
        .next (s.raise .capacityExceeded (commandInfo (.pushc c)))
      else
        .next { s with bits := s.bits.append v, nch := s.nch + 1 }.respondOk

/-- SEAL f (R66, R67): drop the `f` fill bits, fix `LEN`, open the cursor at 0, `RES <- LEN`. -/
def execSeal (f : Operand) (s : State) : Result :=
  checked (.sealf f) s <| withOperand (.sealf f) (sealOperandOk f s.nch) s <|
    let n := Config.charBits * s.nch.toNat - f.toNat
    .next { s with
      bits := s.bits.truncate n, len := BitVec.ofNat 16 n, pos := 0, phase := .ready,
      res := zext32 n }.respondOk

/-- RDB i (R68): byte `i` of the byte image; the cursor does not move. -/
def execRdb (i : Operand) (s : State) : Result :=
  checked (.rdb i) s <| withOperand (.rdb i) (rdbOperandOk i s.len) s <|
    match s.readByte i.toNat with
    | none => .fault .absentBit
    | some b => .next (s.setRes (zext32 b.toNat)).respondOk

end Sys2Proof.Machine
end

