-- ==== Sys2Proof/Machine/Cursor.lean ====
section
/-!
DEFINITION. Machine/Cursor.lean: the bit cursor commands REM, TAKEU, TAKES (spec/41_cursor.md).
-/

namespace Sys2Proof.Machine

/-- REM (R73): the number of unconsumed bits; the cursor does not move. -/
def execRem (s : State) : Result :=
  checked .rem s <| .next (s.setRes (zext32 s.remaining)).respondOk

/-- TAKEU w (R74): the next `w` bits as a big-endian unsigned integer, zero-extended. -/
def execTakeu (w : Operand) (s : State) : Result :=
  take (.takeu w) w (takeuOperandOk w)
    (fun s => (s.setRes (zext32 (extract s.bits s.pos.toNat w.toNat))).respondOk) s

/-- TAKES w (R75): the same bits as two's complement, sign-extended from bit `w-1`. -/
def execTakes (w : Operand) (s : State) : Result :=
  take (.takes w) w (takesOperandOk w)
    (fun s => (s.setRes (sext32 (extract s.bits s.pos.toNat w.toNat) w.toNat)).respondOk) s

end Sys2Proof.Machine
end

