-- ==== Sys2Proof/Machine/Text.lean ====
section
/-!
DEFINITION. Machine/Text.lean: the 6-bit text commands TAKET, SIXA (spec/42_text.md).
-/

namespace Sys2Proof.Machine

/-- TAKET w (R84): decode `w / 6` characters, trim trailing `'@'`, fill `TXT` and `TLEN`, `RES <- t`;
the cursor advances by the full `w`, trimmed or not. -/
def execTaket (w : Operand) (s : State) : Result :=
  take (.taket w) w (taketOperandOk w)
    (fun s =>
      let text := decodeText s.bits s.pos.toNat w.toNat
      ((s.setText text).setRes (zext32 text.length)).respondText) s

/-- SIXA v (R87): the ASCII code of one sixbit value; neither buffer nor cursor is touched. -/
def execSixa (v : Operand) (s : State) : Result :=
  checked (.sixa v) s <| .next (s.setRes (zext32 (ascii6 v.toNat))).respondOk

end Sys2Proof.Machine
end

