-- ==== Sys2Proof/Machine/Dispatch.lean ====
section
/-!
DEFINITION. Machine/Dispatch.lean: one arm per command of the opcode map (30_encoding.md R46).
-/

namespace Sys2Proof.Machine

def exec (i : Instr) (s : State) : Host.Outcome State Fault Refusal :=
  match i with
  | .clr => Sys2Proof.Machine.execClr s
  | .pushc c => Sys2Proof.Machine.execPushc c s
  | .sealf f => Sys2Proof.Machine.execSeal f s
  | .rdb n => Sys2Proof.Machine.execRdb n s
  | .rem => Sys2Proof.Machine.execRem s
  | .takeu w => Sys2Proof.Machine.execTakeu w s
  | .takes w => Sys2Proof.Machine.execTakes w s
  | .taket w => Sys2Proof.Machine.execTaket w s
  | .sixa v => Sys2Proof.Machine.execSixa v s

end Sys2Proof.Machine
end

