-- ==== Sys2Proof/Machine/Step.lean ====
section
/-!
DEFINITION. Machine/Step.lean: one step takes the client's next input. The block has no program counter and
fetches no instructions (10_state.md R12): each word comes from the client.
-/

namespace Sys2Proof.Machine

/-- One step: the reset event (R110), one word, executed whole and answered before the next is taken
(20_memory.md R41), or nothing when the client sends nothing. -/
def step (s : State) : Host.Outcome State Fault Refusal :=
  match s.pending with
  | [] => idle s
  | .reset :: rest => takeReset { s with pending := rest }
  | .command w :: rest =>
    match decode w with
    | .ok i => exec i { s with pending := rest }
    | .error _ => illegalCommand w { s with pending := rest }

/-- The client sends the table's word next (log entry 2). -/
def State.withFetchWord (s : State) (nbits w : Nat) : State :=
  { s with pending := .command (tableWord nbits w) :: s.pending }

end Sys2Proof.Machine
end

