-- ==== Sys2Proof/Machine/Reference.lean ====
section
/-!
DEFINITION. Machine/Reference.lean: the functions and views the spec names beside the commands: the
two-part cursor (10_state.md R19), the byte-level extraction (41_cursor.md R77), `Unarmor` (40_armor.md R62),
the pseudo-instructions (30_encoding.md R53), the inverses of the alphabets (42_text.md R89). No step calls
them; claims compare the commands with them.
-/

namespace Sys2Proof.Machine

/-- `CUR_BYTE = POS div 8` (R19). -/
def State.curByte (s : State) : Nat := s.pos.toNat / 8

/-- `CUR_BIT = POS mod 8`, 0 the most significant bit of the byte (R19). -/
def State.curBit (s : State) : Nat := s.pos.toNat % 8

/-- `NBYTES = ceil8(LEN)` (20_memory.md R32). -/
def State.nbytes (s : State) : Nat := ceil8 s.len.toNat

/-- The byte image of the sealed buffer, index 0 first (R31). -/
def State.image (s : State) : List Byte := (List.range s.nbytes).map (byteAt s.bits s.len.toNat)

/-- `acc = (acc << 8) | ByteAt(B + k)` for `k` in 0 to `nb - 1`: R77's big-endian gather. -/
def gather (m : Memory) (len B nb : Nat) : Nat :=
  (List.range nb).foldl (fun acc k => (acc <<< 8) ||| (byteAt m len (B + k)).toNat) 0

/-- `ExtractBytes(B, b, w)`: the value of a field computed from the byte image (R77). -/
def extractBytes (m : Memory) (len B b w : Nat) : Nat :=
  let nb := ceil8 (b + w)
  let drop := 8 * nb - (b + w)
  (gather m len B nb >>> drop) &&& (2 ^ w - 1)

/-- The bit string of an armored text, or its first character outside the alphabet (R62). -/
def armorBits : List Byte → Except Byte Memory
  | [] => .ok []
  | c :: rest =>
    match sixbit c.toNat with
    | none => .error c
    | some v => (armorBits rest).map (bitsOf Config.charBits v ++ ·)

/-- `Buffer(bits, LEN, bytes)`, what `Unarmor` returns for a text it can decode (R62). -/
structure Buffer where
  /-- The bit string without the fill bits. -/
  bits : Memory
  /-- `LEN`, the exact valid bit length. -/
  len : Nat
  /-- `[ByteAt(0), ..., ByteAt(ceil8(LEN) - 1)]`. -/
  bytes : List Byte
  deriving DecidableEq, Repr

/-- The outcomes of `Unarmor(s, f)` (R62). -/
inductive Unarmored where
  /-- `Error(InvalidArmorCharacter, c)`: the first character outside the alphabet. -/
  | invalidArmorCharacter (c : Byte)
  /-- The `require` fails: `f > 5` or `f > 6n`, to which the rule gives no meaning (SEAL faults, R66). -/
  | noMeaning
  /-- The buffer. -/
  | buffer (b : Buffer)
  deriving DecidableEq, Repr

/-- The buffer of `n` bits made of the head of a bit string, with its byte image (R62, 20_memory.md R31). -/
def bufferOf (m : Memory) (n : Nat) : Buffer where
  bits := m.truncate n
  len := n
  bytes := (List.range (ceil8 n)).map (byteAt (m.truncate n) n)

/-- `Unarmor(s, f)`: the first bad character wins, then `f` is required to be at most 5 and at most `6n`, then
the last `f` bits are dropped (R62). -/
def unarmor (text : List Byte) (f : Nat) : Unarmored :=
  match armorBits text with
  | .error c => .invalidArmorCharacter c
  | .ok b =>
    let n := Config.charBits * text.length
    if f ≤ Config.fillMax ∧ f ≤ n then .buffer (bufferOf b (n - f)) else .noMeaning

/-- The number of characters before the first one outside the armor alphabet. -/
def legalPrefix (text : List Byte) : Nat := (text.takeWhile fun c => (sixbit c.toNat).isSome).length

/-- `UNARMOR "s", f` (R53): CLR, one PUSHC per character, SEAL f. -/
def unarmorCommands (text : List Byte) (f : Operand) : List Instr :=
  .clr :: text.map (fun c => .pushc (c.setWidth 12)) ++ [.sealf f]

/-- `SKIP w` (R53). -/
def skipCommand (w : Operand) : Instr := .takeu w

/-- `TAKEB` (R53). -/
def takebCommand : Instr := .takeu 1

/-- The words of a command sequence, as the client sends them. -/
def asInputs (cs : List Instr) : List Input := cs.map fun i => .command (encode i)

/-- The inverse of `ascii6` on the codes 32 to 95 (R89; the block does not implement it). -/
def ascii6Inverse (c : Nat) : Nat := if c ≥ 64 then c - 64 else c

/-- The inverse of `sixbit` (R89; the block does not implement it). -/
def sixbitInverse (g : Nat) : Nat := if g ≤ 39 then g + 48 else g + 56

/-- The armored text that R89 packs a string into. -/
def armorOf (text : List Byte) : List Byte :=
  text.map fun c => BitVec.ofNat 8 (sixbitInverse (ascii6Inverse c.toNat))

/-- The width of a tolerant read of spare bits, `min(declared, remaining)`: the client's own
computation between REM and TAKEU (41_cursor.md R82). -/
def clampedWidth (declared remaining : Nat) : Nat := min declared remaining

end Sys2Proof.Machine
end

