-- ==== Sys2Proof/Machine/Assembler.lean ====
section
/-!
DEFINITION. Machine/Assembler.lean: the assembler text of 30_encoding.md R52 and the pseudo-instructions
of R53, as a function from characters to commands. No step calls it. What R52 leaves open is in log
entry 12.
-/

namespace Sys2Proof.Machine.Assembler

/-- White space inside a line. -/
def isBlank (c : Char) : Bool := c == ' ' || c == '\t'

def skipBlank (cs : List Char) : List Char := cs.dropWhile isBlank

/-- Only white space, or a comment from `;`, is left on the line (R52). -/
def lineEnds (cs : List Char) : Bool :=
  match skipBlank cs with
  | [] => true
  | c :: _ => c == ';'

/-- The value of a digit in base 10 or 16. -/
def digitValue (base : Nat) (c : Char) : Option Nat :=
  let v := if c.isDigit then c.toNat - 48
    else if 'A' ≤ c ∧ c ≤ 'F' then c.toNat - 55
    else if 'a' ≤ c ∧ c ≤ 'f' then c.toNat - 87
    else base
  if v < base then some v else none

/-- The digits at the head of `cs`, after the value `acc` read so far. -/
def digits (base acc : Nat) : List Char → Nat × List Char
  | [] => (acc, [])
  | c :: rest =>
    match digitValue base c with
    | some v => digits base (acc * base + v) rest
    | none => (acc, c :: rest)

/-- At least one digit. -/
def numeral (base : Nat) (cs : List Char) : Option (Nat × List Char) :=
  match cs with
  | [] => none
  | c :: _ => if (digitValue base c).isSome then some (digits base 0 cs) else none

/-- A decimal or a hexadecimal number (R52). -/
def number : List Char → Option (Nat × List Char)
  | '0' :: 'x' :: rest => numeral 16 rest
  | cs => numeral 10 cs

/-- The operand of PUSHC: a number, or a character in single quotes (R52). -/
def characterOrNumber : List Char → Option (Nat × List Char)
  | '\'' :: c :: '\'' :: rest => some (c.toNat, rest)
  | cs => number cs

/-- The rest of a string in double quotes; the only escape is a backslash before a double quote (R53). -/
def quoted : List Char → Option (List Char × List Char)
  | [] => none
  | '"' :: rest => some ([], rest)
  | '\\' :: '"' :: rest => (quoted rest).map fun (s, left) => ('"' :: s, left)
  | c :: rest => (quoted rest).map fun (s, left) => (c :: s, left)

/-- The mnemonics without an operand. -/
def plainCommand : List Char → Option Instr
  | ['C', 'L', 'R'] => some .clr
  | ['R', 'E', 'M'] => some .rem
  | ['T', 'A', 'K', 'E', 'B'] => some takebCommand
  | _ => none

/-- The mnemonics with one operand. -/
def operandCommand : List Char → Option (Operand → Instr)
  | ['P', 'U', 'S', 'H', 'C'] => some .pushc
  | ['S', 'E', 'A', 'L'] => some .sealf
  | ['R', 'D', 'B'] => some .rdb
  | ['T', 'A', 'K', 'E', 'U'] => some .takeu
  | ['T', 'A', 'K', 'E', 'S'] => some .takes
  | ['T', 'A', 'K', 'E', 'T'] => some .taket
  | ['S', 'I', 'X', 'A'] => some .sixa
  | ['S', 'K', 'I', 'P'] => some skipCommand
  | _ => none

/-- A command whose operand fits its field (R45); nothing else has an encoding. -/
def fitting (make : Operand → Instr) (n : Nat) : Option Instr :=
  if n < 4096 ∧ (make (BitVec.ofNat 12 n)).wellFormed then some (make (BitVec.ofNat 12 n)) else none

/-- What follows `UNARMOR`: `"s", f` (R53). -/
def unarmorLine (cs : List Char) : Option (List Instr) :=
  match skipBlank cs with
  | '"' :: rest =>
    match quoted rest with
    | none => none
    | some (text, left) =>
      match skipBlank left with
      | ',' :: left =>
        match number (skipBlank left) with
        | none => none
        | some (f, left) =>
          if lineEnds left ∧ f < 8 ∧ text.all (fun c => c.toNat < 256) then
            some (unarmorCommands (text.map fun c => BitVec.ofNat 8 c.toNat) (BitVec.ofNat 12 f))
          else none
      | _ => none
  | _ => none

/-- One line of assembler text (R52, R53): a command, a pseudo-instruction, or nothing. That white space may stand
before the mnemonic, and that a blank line or a line with only a comment is assembler text for no command, is
the model's choice (DESIGN CHOICE, log entry 12). -/
def line (cs : List Char) : Option (List Instr) :=
  let cs := skipBlank cs
  if lineEnds cs then some []
  else
    let word := cs.takeWhile Char.isUpper
    let rest := cs.dropWhile Char.isUpper
    match plainCommand word with
    | some i => if lineEnds rest then some [i] else none
    | none =>
      if rest.head?.any isBlank then
        if word = ['U', 'N', 'A', 'R', 'M', 'O', 'R'] then unarmorLine rest
        else
          match operandCommand word with
          | none => none
          | some make =>
            let operand := if word = ['P', 'U', 'S', 'H', 'C'] then characterOrNumber else number
            match operand (skipBlank rest) with
            | none => none
            | some (n, left) => if lineEnds left then (fitting make n).map ([·]) else none
      else none

/-- A program text as its lines; `none` when some line is not assembler text. -/
def program : List (List Char) → Option (List Instr)
  | [] => some []
  | l :: rest =>
    match line l, program rest with
    | some is, some more => some (is ++ more)
    | _, _ => none

/-- The command words of a program text: R52's encoding of each line. -/
def words (lines : List (List Char)) : Option (List CommandWord) := (program lines).map (·.map encode)

end Sys2Proof.Machine.Assembler
end

