-- ==== Sys2Proof/Machine/System.lean ====
section
/-!
DEFINITION. Machine/System.lean: any number of block instances side by side (60_exceptions.md R107,
10_state.md R27). Each is a `State` of its own; they share nothing and cannot signal one another.
-/

namespace Sys2Proof.Machine

/-- The instances of a system. They share no state, but all have the one capacity `Config.capBits`
(DESIGN CHOICE, log entry 18). -/
abbrev System := List State

/-- Instance `k` takes one step; the others keep their state. `none` when there is no such instance, or
when its step stops. -/
def System.stepAt (sys : System) (k : Nat) : Option System :=
  match sys[k]? with
  | none => none
  | some s =>
    match step s with
    | .next t => some (sys.set k t)
    | .fault _ => none
    | .refused _ => none

/-- The instances step in the order of the schedule, each entry one step of the instance it names. -/
def System.runSchedule (sys : System) : List Nat → Option System
  | [] => some sys
  | k :: schedule => (sys.stepAt k).bind fun next => next.runSchedule schedule

end Sys2Proof.Machine
end

