-- ==== Sys2Proof/Safety.lean ====
section
/-!
DEFINITION. Safety.lean: what holds in every reachable state (10_state.md R20 and R17) and what a client
that uses the block well may issue (60_exceptions.md R92). A run is safe when no step stops: the block has
no third outcome (60_exceptions.md R108).
-/

namespace Sys2Proof.Machine

/-- The invariants of 10_state.md R20, with R10's bound on the buffer. -/
structure State.Inv (s : State) : Prop where
  /-- R10: `|BITS| <= CAP_BITS`, in every phase. -/
  capacity : s.bits.wf
  /-- `NCH` is at most `CAP_BITS / 6` (10_state.md, summary table). -/
  characters : 6 * s.nch.toNat ≤ Config.capBits
  /-- R20 item 1. -/
  filling : s.phase = .fill → s.bits.length = 6 * s.nch.toNat ∧ s.len = 0 ∧ s.pos = 0
  /-- R20 item 2: `|BITS| = LEN = 6 * NCH - f` for some `f <= 5`. -/
  sealed : s.phase = .ready →
    s.bits.length = s.len.toNat ∧
      ∃ f, f ≤ 5 ∧ f ≤ 6 * s.nch.toNat ∧ s.len.toNat = 6 * s.nch.toNat - f
  /-- R20 item 3. -/
  latch : s.err = .none ↔ s.phase ≠ .fault
  /-- R20 item 4: `TLEN` is at most 42 and the bytes of `TXT` from there on are 0. -/
  textLength : s.tlen.toNat ≤ 42
  textPadding : ∀ i : Fin 42, s.tlen.toNat ≤ i.val → s.txt[i] = 0
  /-- R20 item 5, in every phase. -/
  cursor : s.pos.toNat ≤ s.len.toNat

/-- What 10_state.md R17 says of the bytes of the text: each in 32 to 95, the last not `'@'`. -/
structure State.TextInv (s : State) : Prop where
  range : ∀ c ∈ s.text, 32 ≤ c.toNat ∧ c.toNat ≤ 95
  trimmed : s.text.getLast? ≠ some 64

/-- The operand is in the legal range of R45 and R98 (PUSHC's and SIXA's every value is). -/
def operandLegal (s : State) : Instr → Bool
  | .clr => true
  | .pushc _ => true
  | .sealf f => sealOperandOk f s.nch
  | .rdb i => rdbOperandOk i s.len
  | .rem => true
  | .takeu w => takeuOperandOk w
  | .takes w => takesOperandOk w
  | .taket w => taketOperandOk w
  | .sixa _ => true

/-- PUSHC has room for one more character (40_armor.md R65); no other command needs any. -/
def capacityLeft (s : State) : Instr → Bool
  | .clr => true
  | .pushc _ => 6 * (s.nch.toNat + 1) ≤ Config.capBits
  | .sealf _ => true
  | .rdb _ => true
  | .rem => true
  | .takeu _ => true
  | .takes _ => true
  | .taket _ => true
  | .sixa _ => true

/-- R92: in its phase, with a legal operand, and within the capacity. -/
def wellUsed (s : State) (i : Instr) : Bool :=
  legalIn i s.phase && operandLegal s i && capacityLeft s i

/-- R97: the commands that raise SequenceError, and the phase in which they do. -/
def outOfPhase (p : Phase) : Instr → Prop
  | .clr => False
  | .pushc _ => p = .ready
  | .sealf _ => p = .ready
  | .rdb _ => p = .fill
  | .rem => p = .fill
  | .takeu _ => p = .fill
  | .takes _ => p = .fill
  | .taket _ => p = .fill
  | .sixa _ => False

/-- The command is a take of `w` bits: TAKEU, TAKES or TAKET (00_scope.md R9). -/
def IsTake (i : Instr) (w : Operand) : Prop := i = .takeu w ∨ i = .takes w ∨ i = .taket w

/-- The next input is CLR or the reset event: all that leaves FAULT or reopens the buffer. -/
def clearsNext (s : State) : Prop :=
  ∃ rest, s.pending = .reset :: rest ∨ s.pending = .command 0x0000 :: rest

/-- `sum for k in 0 .. w-1 of BITS[a + k] * 2^(w - 1 - k)`: the value R30 and R76 give a field, as the
sum the rules write (the machine computes `extract`). -/
def fieldValue (m : Memory) (a w : Nat) : Nat :=
  ∑ k ∈ Finset.range w, (m.getD (a + k) false).toNat * 2 ^ (w - 1 - k)

/-- The character of lane `j` of a text field at bit address `a` (42_text.md R83, R88). -/
def laneChar (m : Memory) (a j : Nat) : Byte :=
  let g := fieldValue m (a + 6 * j) 6
  BitVec.ofNat 8 (if g ≤ 31 then 64 + g else g)

/-- The full effect of each command when it completes, as its rule states it (40_armor.md R63 to R68,
41_cursor.md R73 to R75, 42_text.md R84 and R87), from `s` with the command's word already taken. -/
def FullEffect (i : Instr) (s t : State) : Prop :=
  match i with
  | .clr => t = { State.reset with pending := s.pending, responses := s.responses ++ [.ok 0] }
  | .pushc c =>
    ∃ b : List Bool, b.length = 6 ∧ val b = (if c.toNat ≤ 87 then c.toNat - 48 else c.toNat - 56) ∧
      t = { s with bits := s.bits ++ b, nch := s.nch + 1, responses := s.responses ++ [.ok s.res] }
  | .sealf f =>
    let n := 6 * s.nch.toNat - f.toNat
    t = { s with
      bits := s.bits.take n, len := BitVec.ofNat 16 n, pos := 0, phase := .ready
      res := BitVec.ofNat 32 n, responses := s.responses ++ [.ok (BitVec.ofNat 32 n)] }
  | .rdb i =>
    ∃ b : Byte,
      (∀ k < 8, b.getLsbD (7 - k) =
        if 8 * i.toNat + k < s.len.toNat then s.bits.getD (8 * i.toNat + k) false else false) ∧
      t = { s with res := b.setWidth 32, responses := s.responses ++ [.ok (b.setWidth 32)] }
  | .rem =>
    ∃ r : Word, r.toNat = s.len.toNat - s.pos.toNat ∧
      t = { s with res := r, responses := s.responses ++ [.ok r] }
  | .takeu w =>
    ∃ r : Word, r.toNat = fieldValue s.bits s.pos.toNat w.toNat ∧
      t = { s with pos := s.pos + w.setWidth 16, res := r, responses := s.responses ++ [.ok r] }
  | .takes w =>
    let v := fieldValue s.bits s.pos.toNat w.toNat
    ∃ r : Word, r.toInt = (if v < 2 ^ (w.toNat - 1) then (v : Int) else (v : Int) - 2 ^ w.toNat) ∧
      t = { s with pos := s.pos + w.setWidth 16, res := r, responses := s.responses ++ [.ok r] }
  | .taket w =>
    let n := w.toNat / 6
    let ch := laneChar s.bits s.pos.toNat
    ∃ l ≤ n, (0 < l → ch (l - 1) ≠ 64) ∧ (∀ j, l ≤ j → j < n → ch j = 64) ∧
      ∃ x : Vector Byte 42, (∀ j : Fin 42, x[j] = if j.val < l then ch j.val else 0) ∧
        t = { s with
          pos := s.pos + w.setWidth 16, tlen := BitVec.ofNat 6 l, txt := x, res := BitVec.ofNat 32 l
          responses := s.responses ++ [.okText (BitVec.ofNat 32 l) ((List.range l).map ch)] }
  | .sixa v =>
    let r : Word := if v.toNat ≤ 31 then BitVec.ofNat 32 (64 + v.toNat) else BitVec.ofNat 32 v.toNat
    t = { s with res := r, responses := s.responses ++ [.ok r] }

/-- `c` is in the armor alphabet: 48 to 87 or 96 to 119 (30_encoding.md R55). -/
def armorLegal (c : Nat) : Prop := (48 ≤ c ∧ c ≤ 87) ∨ (96 ≤ c ∧ c ≤ 119)

end Sys2Proof.Machine
end

