-- ==== Sys2Proof/Certificates/Slice0/Obligations.lean ====
section
/-!
DEFINITION. Certificates/Slice0/Obligations.lean: the statements for the provers. Each docstring names the
rule of spec/ it formalises. `cmd` in a rule is the command's word, here `encode i`.
-/

open Sys2Proof Sys2Proof.Machine

/-! ## Encoding -/

/-- Words written out from the opcode map of 30_encoding.md R46, one per command, one with a
must-be-zero bit set and one with a reserved opcode. -/
def Obligations.DecodeOfSpecWords : Prop :=
  decode 0b0000000000000000 = .ok .clr ∧
  decode 0b0001000000110100 = .ok (.pushc 52) ∧
  decode 0b0010000000000101 = .ok (.sealf 5) ∧
  decode 0b0011111111111111 = .ok (.rdb 4095) ∧
  decode 0b0100000000000000 = .ok .rem ∧
  decode 0b0101000000100000 = .ok (.takeu 32) ∧
  decode 0b0110000000011100 = .ok (.takes 28) ∧
  decode 0b0111000001111000 = .ok (.taket 120) ∧
  decode 0b1000000000111111 = .ok (.sixa 63) ∧
  decode 0b0101000001000000 = .error (.mustBeZero 5) ∧
  decode 0b1001000000000000 = .error (.reservedOpcode 9)

/-- Decoding the word of a command gives it back, whatever its operand; a term whose operand does not
fit its field has an illegal word. -/
def Obligations.DecodeOfEncode : Prop :=
  ∀ i : Instr, decode (encode i) = if i.wellFormed then .ok i else .error (.mustBeZero i.opcode)

/-- The other direction: a word that decodes is the word of what it decodes to, which is well formed. -/
def Obligations.EncodeOfDecode : Prop :=
  ∀ (w : CommandWord) (i : Instr), decode w = .ok i → encode i = w ∧ i.wellFormed = true

/-- 30_encoding.md R46: the rows are disjoint; a word is the command of the row it matches, its operand the
bits outside the mask; a word that matches no row is illegal. -/
def Obligations.DecodeIsTheOpcodeMap : Prop :=
  opcodeMap.Pairwise (fun r q => ∀ w, ¬(r.matchesWord w = true ∧ q.matchesWord w = true)) ∧
  ∀ w : CommandWord,
    match opcodeMap.find? (·.matchesWord w) with
    | some r =>
      ∃ i, decode w = .ok i ∧ i.mnemonic = r.mnemonic ∧ i.operand.setWidth 16 = w &&& ~~~r.mask
    | none => ∃ e, decode w = .error e

/-- 30_encoding.md R53: the line `UNARMOR "s", f` is CLR, one PUSHC per character, SEAL f, for every text
without a double quote or a backslash (the escape of R53). The form of the line is log entry 12's. -/
def Obligations.UnarmorLineExpands : Prop :=
  ∀ (text : List Char) (f : Fin 8), (∀ c ∈ text, c.toNat < 256 ∧ c ≠ '"' ∧ c ≠ '\\') →
    Assembler.line ("UNARMOR ".toList ++ '"' :: text ++ ['"', ',', ' ', Char.ofNat (48 + f.val)]) =
      some (.clr :: text.map (fun c => .pushc (BitVec.ofNat 12 c.toNat)) ++ [.sealf (BitVec.ofNat 12 f.val)])

/-! ## The alphabets -/

/-- 30_encoding.md R55: `Sixbit` by its two ranges, and that it is a bijection from the 64 legal codes onto
0 to 63. -/
def Obligations.ArmorAlphabetIsABijection : Prop :=
  (∀ c, sixbit c =
    if 48 ≤ c ∧ c ≤ 87 then some (c - 48) else if 96 ≤ c ∧ c ≤ 119 then some (c - 56) else none) ∧
  ∀ v, v < 64 ↔ ∃! c, sixbit c = some v

/-- 30_encoding.md R57: `Ascii6` by its formula, and that it is a bijection from 0 to 63 onto 32 to 95. -/
def Obligations.TextAlphabetIsABijection : Prop :=
  (∀ n, n < 64 → ascii6 n = if n ≤ 31 then 64 + n else n) ∧
  ∀ code, (32 ≤ code ∧ code ≤ 95) ↔ ∃! n, n < 64 ∧ ascii6 n = code

/-- 30_encoding.md R58: the text alphabet and the inverse of the armor alphabet give the same character for
no value. -/
def Obligations.AlphabetsAgreeNowhere : Prop :=
  ∀ n c, n < 64 → sixbit c = some n → ascii6 n ≠ c

/-! ## Reset, CLR, and what a step is -/

/-- 10_state.md R23: the value of every element after reset, and equally after CLR. -/
def Obligations.ResetAndClrValues : Prop :=
  let isReset : State → Prop := fun t =>
    t.phase = .fill ∧ t.bits.length = 0 ∧ t.nch = 0 ∧ t.len = 0 ∧
    t.pos = 0 ∧ t.curByte = 0 ∧ t.curBit = 0 ∧ t.res = 0x00000000 ∧
    (∀ j : Fin 42, t.txt[j] = 0) ∧ t.tlen = 0 ∧ t.err = .none ∧ t.einfo = 0x00000000
  isReset State.reset ∧ ∀ s, ∃ t, exec .clr s = .next t ∧ isReset t

/-- 40_armor.md R63: CLR, in every phase, gives the reset state exactly (the port is not the block's) and
answers OK(0); a word with `op = 0` and another `arg` is not CLR, and is ignored in FAULT. -/
def Obligations.ClrRestoresTheResetState : Prop :=
  (∀ s, exec .clr s = .next
    { State.reset with pending := s.pending, responses := s.responses ++ [.ok 0] }) ∧
  decode 0x0000 = .ok .clr ∧
  ∀ arg : Operand, arg ≠ 0 → (∃ e, decode (0#4 ++ arg) = .error e) ∧
    ∀ s rest, s.phase = .fault → s.pending = .command (0#4 ++ arg) :: rest →
      step s = .next { s with pending := rest, responses := s.responses ++ [.err s.err] }

/-- 70_reset_and_hazards.md R109: the reset event, in any phase, puts every element to its reset value and
returns nothing. -/
def Obligations.ResetEventGivesTheResetState : Prop :=
  ∀ s rest, s.pending = .reset :: rest →
    step s = .next { State.reset with pending := rest, responses := s.responses }

/-- A step on a word that decodes is `exec` of the command, with the word taken from the client. -/
def Obligations.StepRunsTheDecodedCommand : Prop :=
  ∀ s w rest i, s.pending = .command w :: rest → decode w = .ok i →
    step s = exec i { s with pending := rest }

/-- 00_scope.md R6: with nothing from the client, nothing happens (that this is a step is log entry 4's). -/
def Obligations.StepIdlesWithoutInput : Prop := ∀ s, s.pending = [] → step s = .next s

/-! ## Faults -/

/-- 60_exceptions.md R99: a step that takes a fault writes ERR, EINFO and PHASE, answers ERR(code), and does
nothing else (the word has left the client's queue). -/
def Obligations.FaultEntryIsPrecise : Prop :=
  ∀ s t, s.phase ≠ .fault → step s = .next t → t.phase = .fault →
    ∃ f info, f ≠ .none ∧
      t = { s with
        err := f, einfo := info, phase := .fault, pending := s.pending.tail
        responses := s.responses ++ [.err f] }

/-- 60_exceptions.md R102: in FAULT every word but `0x0000`, a command or illegal, changes no state and is
answered `ERR(ERR)`. -/
def Obligations.FaultIgnoresAllButClr : Prop :=
  ∀ s w rest, s.phase = .fault → s.pending = .command w :: rest → w ≠ 0x0000 →
    step s = .next { s with pending := rest, responses := s.responses ++ [.err s.err] }

/-- 60_exceptions.md R96: which words are illegal, and that in FILL or READY each raises IllegalCommand with
EINFO the word. `fieldBits` is the width of each opcode's operand field (R45). -/
def Obligations.IllegalWordsRaiseIllegalCommand : Prop :=
  let fieldBits : List Nat := [0, 8, 3, 12, 0, 6, 6, 8, 6]
  ∀ w : CommandWord,
    ((∃ e, decode w = .error e) ↔
      9 ≤ (opField w).toNat ∨ 2 ^ fieldBits.getD (opField w).toNat 0 ≤ (argField w).toNat) ∧
    ∀ s rest e, s.pending = .command w :: rest → s.phase ≠ .fault → decode w = .error e →
      step s = .next
        { s with
          err := .illegalCommand, einfo := w.setWidth 32, phase := .fault, pending := rest
          responses := s.responses ++ [.err .illegalCommand] }

/-- 60_exceptions.md R97: SequenceError, EINFO the word, for PUSHC and SEAL in READY and for RDB, REM and the
takes in FILL; CLR and SIXA never raise it, nor does any command in its phase. -/
def Obligations.SequenceErrorOutOfPhase : Prop :=
  ∀ i s, s.phase ≠ .fault →
    (outOfPhase s.phase i → exec i s = .next
      { s with
        err := .sequenceError, einfo := (encode i).setWidth 32, phase := .fault
        responses := s.responses ++ [.err .sequenceError] }) ∧
    (¬outOfPhase s.phase i → ∀ t, exec i s = .next t → t.phase = .fault → t.err ≠ .sequenceError)

/-- 60_exceptions.md R98: the operands that raise InvalidOperand in the legal phase, and PUSHC of a legal
character beyond the capacity; EINFO is the word. -/
def Obligations.InvalidOperandAndCapacity : Prop :=
  ∀ s : State,
    let raises : FaultCode → Instr → Prop := fun f i => exec i s = .next
      { s with
        err := f, einfo := (encode i).setWidth 32, phase := .fault
        responses := s.responses ++ [.err f] }
    (s.phase = .fill → ∀ f, f.toNat > 5 ∨ f.toNat > 6 * s.nch.toNat →
      raises .invalidOperand (.sealf f)) ∧
    (s.phase = .ready → ∀ i, i.toNat ≥ (s.len.toNat + 7) / 8 → raises .invalidOperand (.rdb i)) ∧
    (s.phase = .ready → ∀ w, w.toNat > 32 → raises .invalidOperand (.takeu w)) ∧
    (s.phase = .ready → ∀ w, w.toNat = 0 ∨ w.toNat > 32 → raises .invalidOperand (.takes w)) ∧
    (s.phase = .ready → ∀ w, w.toNat % 6 ≠ 0 ∨ w.toNat > 252 → raises .invalidOperand (.taket w)) ∧
    (s.phase = .fill → ∀ c, armorLegal c.toNat → 6 * (s.nch.toNat + 1) > Config.capBits →
      raises .capacityExceeded (.pushc c))

/-- 41_cursor.md R79, 60_exceptions.md R95: a take with a legal operand raises InsufficientBits, EINFO the
width, exactly when `w > LEN - POS`; otherwise it completes. Width 0 never raises it. -/
def Obligations.InsufficientBitsExactly : Prop :=
  ∀ i w s, IsTake i w → s.Inv → s.phase = .ready → operandLegal s i = true →
    (w.toNat > s.len.toNat - s.pos.toNat → exec i s = .next
      { s with
        err := .insufficientBits, einfo := w.setWidth 32, phase := .fault
        responses := s.responses ++ [.err .insufficientBits] }) ∧
    (w.toNat ≤ s.len.toNat - s.pos.toNat → ∃ t, exec i s = .next t ∧ t.phase = .ready) ∧
    (w = 0 → ∃ t, exec i s = .next t ∧ t.phase = .ready)

/-- 60_exceptions.md R101: the checks are made in this order and the first that fails is the fault taken,
whatever the later ones would say. -/
def Obligations.ChecksAreMadeInOrder : Prop :=
  ∀ s w rest, s.pending = .command w :: rest →
    let raises : FaultCode → Word → Prop := fun f info => step s = .next
      { s with
        err := f, einfo := info, phase := .fault, pending := rest
        responses := s.responses ++ [.err f] }
    (s.phase = .fault → w ≠ 0x0000 →
      step s = .next { s with pending := rest, responses := s.responses ++ [.err s.err] }) ∧
    (s.phase ≠ .fault →
      (∀ e, decode w = .error e → raises .illegalCommand (w.setWidth 32)) ∧
      ∀ i, decode w = .ok i →
        (outOfPhase s.phase i → raises .sequenceError (w.setWidth 32)) ∧
        (¬outOfPhase s.phase i →
          (operandLegal s i = false → raises .invalidOperand (w.setWidth 32)) ∧
          (∀ c, i = .pushc c →
            (¬armorLegal c.toNat → raises .invalidArmorCharacter (c.setWidth 32)) ∧
            (armorLegal c.toNat → 6 * (s.nch.toNat + 1) > Config.capBits →
              raises .capacityExceeded (w.setWidth 32))) ∧
          ∀ v, IsTake i v → operandLegal s i = true → v.toNat > s.len.toNat - s.pos.toNat →
            raises .insufficientBits (v.setWidth 32)))

/-- 10_state.md R15: what EINFO records at fault entry, by fault; that CLR and reset clear it; that nothing
else writes it. -/
def Obligations.EinfoRecordsTheCause : Prop :=
  (∀ s w rest t, s.pending = .command w :: rest → step s = .next t →
    (s.phase ≠ .fault → t.phase = .fault →
      t.einfo =
        if t.err = .invalidArmorCharacter ∨ t.err = .insufficientBits then (argField w).setWidth 32
        else w.setWidth 32) ∧
    (w = 0x0000 → t.einfo = 0) ∧
    (w ≠ 0x0000 → s.phase = .fault ∨ t.phase ≠ .fault → t.einfo = s.einfo)) ∧
  ∀ s rest t, s.pending = .reset :: rest → step s = .next t → t.einfo = 0

/-- 60_exceptions.md R92: a client that issues a command in its phase, with a legal operand and within the
capacity, can meet only the document's two faults. -/
def Obligations.WellUsedMeetsOnlyDocumentFaults : Prop :=
  ∀ i s, s.Inv → wellUsed s i = true → s.phase ≠ .fault →
    ∃ t, exec i s = .next t ∧
      (t.phase ≠ .fault ∨ t.err = .invalidArmorCharacter ∨ t.err = .insufficientBits)

/-! ## The armor decoder commands -/

/-- 40_armor.md R64, R65: PUSHC in FILL appends the six bits of a legal character, counts it and answers
OK(RES); a bad character is validated first; beyond the capacity nothing is appended; in READY it is a
SequenceError. -/
def Obligations.PushcAppendsSixBits : Prop :=
  ∀ c s,
    let raises : FaultCode → Word → Prop := fun f info => exec (.pushc c) s = .next
      { s with
        err := f, einfo := info, phase := .fault, responses := s.responses ++ [.err f] }
    (s.phase = .fill → armorLegal c.toNat → 6 * (s.nch.toNat + 1) ≤ Config.capBits →
      ∃ b : List Bool, b.length = 6 ∧
        val b = (if c.toNat ≤ 87 then c.toNat - 48 else c.toNat - 56) ∧
        exec (.pushc c) s = .next
          { s with
            bits := s.bits ++ b, nch := s.nch + 1, responses := s.responses ++ [.ok s.res] }) ∧
    (s.phase = .fill → ¬armorLegal c.toNat → raises .invalidArmorCharacter (c.setWidth 32)) ∧
    (s.phase = .fill → armorLegal c.toNat → 6 * (s.nch.toNat + 1) > Config.capBits →
      raises .capacityExceeded ((encode (.pushc c)).setWidth 32)) ∧
    (s.phase = .ready → raises .sequenceError ((encode (.pushc c)).setWidth 32))

/-- 40_armor.md R66: SEAL in FILL drops the last `f` bits, fixes LEN, opens the cursor at 0 and answers
OK(LEN), after which the byte image is defined; `f` above 5 or above the data is InvalidOperand; in READY it
is a SequenceError. -/
def Obligations.SealDropsFillBitsAndOpensTheCursor : Prop :=
  ∀ f s, s.Inv →
    let n := 6 * s.nch.toNat - f.toNat
    let raises : FaultCode → Prop := fun e => exec (.sealf f) s = .next
      { s with
        err := e, einfo := (encode (.sealf f)).setWidth 32, phase := .fault
        responses := s.responses ++ [.err e] }
    (s.phase = .fill → f.toNat ≤ 5 → f.toNat ≤ 6 * s.nch.toNat →
      ∃ t, exec (.sealf f) s = .next t ∧
        t = { s with
          bits := s.bits.take n, len := BitVec.ofNat 16 n, pos := 0, phase := .ready
          res := BitVec.ofNat 32 n, responses := s.responses ++ [.ok (BitVec.ofNat 32 n)] } ∧
        t.len.toNat = n ∧ t.bits.length = n ∧ t.image.length = (n + 7) / 8 ∧
        ∀ i < (n + 7) / 8, ∀ k < 8, (t.image.getD i 0).getLsbD (7 - k) =
          if 8 * i + k < n then s.bits.getD (8 * i + k) false else false) ∧
    (s.phase = .fill → f.toNat > 5 ∨ f.toNat > 6 * s.nch.toNat → raises .invalidOperand) ∧
    (s.phase = .ready → raises .sequenceError)

/-- 40_armor.md R68 with 20_memory.md R31: RDB in READY returns byte `i` of the image, bit `7-k` of it being
sequence bit `8i+k` or 0 past LEN, and moves nothing; past the image it is InvalidOperand; in FILL a
SequenceError. -/
def Obligations.RdbReturnsTheImageByte : Prop :=
  ∀ i s, s.Inv →
    let raises : FaultCode → Prop := fun e => exec (.rdb i) s = .next
      { s with
        err := e, einfo := (encode (.rdb i)).setWidth 32, phase := .fault
        responses := s.responses ++ [.err e] }
    (s.phase = .ready → i.toNat < (s.len.toNat + 7) / 8 →
      ∃ b : Byte,
        (∀ k < 8, b.getLsbD (7 - k) =
          if 8 * i.toNat + k < s.len.toNat then s.bits.getD (8 * i.toNat + k) false else false) ∧
        exec (.rdb i) s = .next
          { s with res := b.setWidth 32, responses := s.responses ++ [.ok (b.setWidth 32)] }) ∧
    (s.phase = .ready → i.toNat ≥ (s.len.toNat + 7) / 8 → raises .invalidOperand) ∧
    (s.phase = .fill → raises .sequenceError)

/-! ## The bit cursor commands -/

/-- 41_cursor.md R73: REM in READY returns LEN - POS and moves nothing; in FILL it is a SequenceError. -/
def Obligations.RemCountsUnconsumedBits : Prop :=
  ∀ s : State, s.pos.toNat ≤ s.len.toNat →
    (s.phase = .ready → ∃ r : Word, r.toNat = s.len.toNat - s.pos.toNat ∧
      exec .rem s = .next { s with res := r, responses := s.responses ++ [.ok r] }) ∧
    (s.phase = .fill → exec .rem s = .next
      { s with
        err := .sequenceError, einfo := 0x4000, phase := .fault
        responses := s.responses ++ [.err .sequenceError] })

/-- 41_cursor.md R74, R76: TAKEU in READY returns the next `w` bits as a big-endian unsigned integer and
advances the cursor by `w`; with its faults. -/
def Obligations.TakeuReadsBigEndian : Prop :=
  ∀ w s, s.Inv →
    let v := fieldValue s.bits s.pos.toNat w.toNat
    let raises : FaultCode → Word → Prop := fun f info => exec (.takeu w) s = .next
      { s with
        err := f, einfo := info, phase := .fault, responses := s.responses ++ [.err f] }
    (s.phase = .ready → w.toNat ≤ 32 → w.toNat ≤ s.len.toNat - s.pos.toNat →
      v < 2 ^ w.toNat ∧ ∃ r : Word, r.toNat = v ∧
        exec (.takeu w) s = .next
          { s with
            pos := s.pos + w.setWidth 16, res := r, responses := s.responses ++ [.ok r] }) ∧
    (s.phase = .ready → w.toNat > 32 → raises .invalidOperand ((encode (.takeu w)).setWidth 32)) ∧
    (s.phase = .ready → w.toNat ≤ 32 → w.toNat > s.len.toNat - s.pos.toNat →
      raises .insufficientBits (w.setWidth 32)) ∧
    (s.phase = .fill → raises .sequenceError ((encode (.takeu w)).setWidth 32))

/-- 41_cursor.md R75: TAKES in READY returns the same bits as two's complement, `signed_w` of 00_scope.md R7,
in 32 bits, and advances the cursor by `w`; with its faults. -/
def Obligations.TakesReadsTwosComplement : Prop :=
  ∀ w s, s.Inv →
    let v := fieldValue s.bits s.pos.toNat w.toNat
    let raises : FaultCode → Word → Prop := fun f info => exec (.takes w) s = .next
      { s with
        err := f, einfo := info, phase := .fault, responses := s.responses ++ [.err f] }
    (s.phase = .ready → 1 ≤ w.toNat → w.toNat ≤ 32 → w.toNat ≤ s.len.toNat - s.pos.toNat →
      ∃ r : Word, r.toInt = (if v < 2 ^ (w.toNat - 1) then (v : Int) else (v : Int) - 2 ^ w.toNat) ∧
        exec (.takes w) s = .next
          { s with
            pos := s.pos + w.setWidth 16, res := r, responses := s.responses ++ [.ok r] }) ∧
    (s.phase = .ready → w.toNat = 0 ∨ w.toNat > 32 →
      raises .invalidOperand ((encode (.takes w)).setWidth 32)) ∧
    (s.phase = .ready → 1 ≤ w.toNat → w.toNat ≤ 32 → w.toNat > s.len.toNat - s.pos.toNat →
      raises .insufficientBits (w.setWidth 32)) ∧
    (s.phase = .fill → raises .sequenceError ((encode (.takes w)).setWidth 32))

/-- 41_cursor.md R78: a completed take of width `w` sets POS to POS + w, and the two-part cursor as the rule
computes it; it cannot pass LEN. -/
def Obligations.TakeAdvancesTheCursor : Prop :=
  ∀ i w s t, IsTake i w → s.Inv → exec i s = .next t → t.phase ≠ .fault →
    t.pos.toNat = s.pos.toNat + w.toNat ∧ t.pos.toNat ≤ t.len.toNat ∧
    t.curByte = s.curByte + (s.curBit + w.toNat) / 8 ∧ t.curBit = (s.curBit + w.toNat) % 8

/-- 41_cursor.md R80: from SEAL on, no step but CLR and reset makes POS smaller. -/
def Obligations.CursorNeverGoesBack : Prop :=
  ∀ s t, s.Inv → s.phase ≠ .fill → ¬clearsNext s → step s = .next t → s.pos.toNat ≤ t.pos.toNat

/-- 41_cursor.md R82: a spare read clamped to what REM returned completes. -/
def Obligations.ClampedSpareReadCompletes : Prop :=
  ∀ (declared : Nat) s, s.Inv → s.phase = .ready → declared ≤ 32 →
    ∃ t r u, exec .rem s = .next t ∧ t.responses = s.responses ++ [.ok r] ∧
      exec (.takeu (BitVec.ofNat 12 (clampedWidth declared r.toNat))) t = .next u ∧
      u.phase = .ready ∧ u.pos.toNat = s.pos.toNat + min declared (s.len.toNat - s.pos.toNat)

/-! ## The text commands -/

/-- 42_text.md R84 with R83 and R85: TAKET in READY maps each six-bit lane, drops the trailing `'@'` (64) and
nothing else, fills TXT and TLEN, returns the length with the text, and advances the cursor by the full
`w`; with its faults. -/
def Obligations.TaketDecodesAndTrims : Prop :=
  ∀ w s, s.Inv →
    let n := w.toNat / 6
    let ch := laneChar s.bits s.pos.toNat
    let raises : FaultCode → Word → Prop := fun f info => exec (.taket w) s = .next
      { s with
        err := f, einfo := info, phase := .fault, responses := s.responses ++ [.err f] }
    (s.phase = .ready → w.toNat % 6 = 0 → w.toNat ≤ 252 → w.toNat ≤ s.len.toNat - s.pos.toNat →
      ∃ t ≤ n, (0 < t → ch (t - 1) ≠ 64) ∧ (∀ j, t ≤ j → j < n → ch j = 64) ∧
        ∃ x : Vector Byte 42, (∀ j : Fin 42, x[j] = if j.val < t then ch j.val else 0) ∧
          exec (.taket w) s = .next
            { s with
              pos := s.pos + w.setWidth 16, tlen := BitVec.ofNat 6 t, txt := x
              res := BitVec.ofNat 32 t
              responses := s.responses ++ [.okText (BitVec.ofNat 32 t) ((List.range t).map ch)] }) ∧
    (s.phase = .ready → w.toNat % 6 ≠ 0 ∨ w.toNat > 252 →
      raises .invalidOperand ((encode (.taket w)).setWidth 32)) ∧
    (s.phase = .ready → w.toNat % 6 = 0 → w.toNat ≤ 252 → w.toNat > s.len.toNat - s.pos.toNat →
      raises .insufficientBits (w.setWidth 32)) ∧
    (s.phase = .fill → raises .sequenceError ((encode (.taket w)).setWidth 32))

/-- 42_text.md R87: SIXA in FILL and READY returns the ASCII code of one sixbit value and changes nothing but
RES. -/
def Obligations.SixaMapsOneCharacter : Prop :=
  ∀ (v : Operand) s, s.phase ≠ .fault →
    let r : Word := if v.toNat ≤ 31 then BitVec.ofNat 32 (64 + v.toNat) else BitVec.ofNat 32 v.toNat
    exec (.sixa v) s = .next { s with res := r, responses := s.responses ++ [.ok r] }

/-- 42_text.md R87, last clause: the lanes of a text field of at most 5 characters are the six-bit slices of
the same field taken as one integer. -/
def Obligations.LanesAreSlicesOfTheInteger : Prop :=
  ∀ (m : Memory) a n, n ≤ 5 → a + 6 * n ≤ m.length →
    groups m a n =
      (List.range n).map fun j => (extract m a (6 * n) >>> (6 * (n - 1 - j))) &&& 63

/-! ## Frames (10_state.md R21) -/

/-- RDB, REM, SIXA: no bit of the buffer changes, nor the counters, the cursor, the text; without a fault
only RES (and the response) does. -/
def Obligations.FrameOfPlainReads : Prop :=
  ∀ i s t, ((∃ n, i = .rdb n) ∨ i = .rem ∨ ∃ v, i = .sixa v) → exec i s = .next t →
    (∀ a : Nat, t.bits[a]? = s.bits[a]?) ∧ t.nch = s.nch ∧ t.len = s.len ∧ t.pos = s.pos ∧
    t.txt = s.txt ∧ t.tlen = s.tlen ∧ t.pending = s.pending ∧
    (t.phase ≠ .fault → t.phase = s.phase ∧ t.err = s.err ∧ t.einfo = s.einfo) ∧
    (t.phase = .fault → t.res = s.res)

/-- TAKEU, TAKES, TAKET: no bit of the buffer changes, nor NCH and LEN; TAKEU and TAKES leave the text;
without a fault the status is unchanged, with one RES, POS and the text are. -/
def Obligations.FrameOfTakes : Prop :=
  ∀ i w s t, IsTake i w → exec i s = .next t →
    (∀ a : Nat, t.bits[a]? = s.bits[a]?) ∧ t.nch = s.nch ∧ t.len = s.len ∧ t.pending = s.pending ∧
    (i ≠ .taket w → t.txt = s.txt ∧ t.tlen = s.tlen) ∧
    (t.phase ≠ .fault → t.phase = s.phase ∧ t.err = s.err ∧ t.einfo = s.einfo) ∧
    (t.phase = .fault → t.res = s.res ∧ t.pos = s.pos ∧ t.txt = s.txt ∧ t.tlen = s.tlen)

/-- PUSHC: every bit that was there stays, and six bits are appended at bit address `|BITS|` and nowhere else
without a fault, when NCH counts one more character and no other register changes; nothing is appended or
counted with one. -/
def Obligations.FrameOfPushc : Prop :=
  ∀ c s t, exec (.pushc c) s = .next t →
    (∀ a : Nat, a < s.bits.length ∨ s.bits.length + 6 ≤ a → t.bits[a]? = s.bits[a]?) ∧
    t.len = s.len ∧ t.pos = s.pos ∧ t.res = s.res ∧ t.txt = s.txt ∧ t.tlen = s.tlen ∧
    t.pending = s.pending ∧
    (t.phase ≠ .fault → t.bits.length = s.bits.length + 6 ∧ t.nch = s.nch + 1 ∧
      t.phase = s.phase ∧ t.err = s.err ∧ t.einfo = s.einfo) ∧
    (t.phase = .fault → t.bits = s.bits ∧ t.nch = s.nch)

/-- SEAL: every bit below the cut stays; NCH and the text never change; without a fault ERR and EINFO stay,
with one the buffer, LEN, POS and RES stay. -/
def Obligations.FrameOfSeal : Prop :=
  ∀ f s t, exec (.sealf f) s = .next t →
    (∀ a : Nat, a < 6 * s.nch.toNat - f.toNat → t.bits[a]? = s.bits[a]?) ∧
    t.nch = s.nch ∧ t.txt = s.txt ∧ t.tlen = s.tlen ∧ t.pending = s.pending ∧
    (t.phase ≠ .fault → t.err = s.err ∧ t.einfo = s.einfo) ∧
    (t.phase = .fault → t.bits = s.bits ∧ t.len = s.len ∧ t.pos = s.pos ∧ t.res = s.res)

/-! ## Rules about the whole machine -/

/-- 10_state.md R13: the phase transitions there are, and no other. -/
def Obligations.PhaseTransitions : Prop :=
  (∀ s t, clearsNext s → step s = .next t → t.phase = .fill) ∧
  ∀ s t, ¬clearsNext s → step s = .next t →
    t.phase = s.phase ∨
    (s.phase = .fill ∧ t.phase = .ready ∧
      ∃ f rest, s.pending = .command (encode (.sealf f)) :: rest) ∨
    (s.phase ≠ .fault ∧ t.phase = .fault)

/-- 40_armor.md R70: after SEAL the buffer, LEN and the byte image change only by CLR or reset; PUSHC and SEAL
in READY are refused with SequenceError; a take changes only POS, RES and, for TAKET, TXT and TLEN. -/
def Obligations.BufferIsImmutableOnceSealed : Prop :=
  (∀ s t, s.phase ≠ .fill → ¬clearsNext s → step s = .next t →
    t.bits = s.bits ∧ t.len = s.len ∧ t.image = s.image) ∧
  (∀ i s, s.phase = .ready → ((∃ c, i = .pushc c) ∨ ∃ f, i = .sealf f) →
    ∃ t, exec i s = .next t ∧ t.phase = .fault ∧ t.err = .sequenceError) ∧
  ∀ i w s t, IsTake i w → exec i s = .next t → t.phase ≠ .fault →
    t = { s with
      pos := t.pos, res := t.res, responses := t.responses
      txt := if i = .taket w then t.txt else s.txt
      tlen := if i = .taket w then t.tlen else s.tlen }

/-- 30_encoding.md R48: each word is answered by exactly one response: OK with the content of RES after the
command (with the text, for TAKET), or ERR with the content of ERR after it, which is 1 to 6. The text stays
readable until the next TAKET, CLR or reset. -/
def Obligations.OneResponsePerCommand : Prop :=
  (∀ s w rest t, s.Inv → s.pending = .command w :: rest → step s = .next t →
    ∃ r, t.responses = s.responses ++ [r] ∧
      match r with
      | .ok v => t.phase ≠ .fault ∧ v = t.res ∧ ¬∃ b, decode w = .ok (.taket b)
      | .okText v x =>
        t.phase ≠ .fault ∧ v = t.res ∧ x = t.txt.toList.take t.tlen.toNat ∧
          ∃ b, decode w = .ok (.taket b)
      | .err e => t.phase = .fault ∧ e = t.err ∧ 1 ≤ e.code.toNat ∧ e.code.toNat ≤ 6) ∧
  ∀ s t, ¬clearsNext s → (∀ w rest b, s.pending = .command w :: rest → decode w ≠ .ok (.taket b)) →
    step s = .next t → t.text = s.text

/-- 20_memory.md R37: RDB, REM and SIXA return the same value when repeated. -/
def Obligations.PlainReadsRepeat : Prop :=
  ∀ i s t u, ((∃ n, i = .rdb n) ∨ i = .rem ∨ ∃ v, i = .sixa v) →
    exec i s = .next t → t.phase ≠ .fault → exec i t = .next u → u.res = t.res ∧ u.phase = t.phase

/-- The invariants of 10_state.md R20 and R17 hold at reset. -/
def Obligations.InvariantsHoldAtReset : Prop := State.reset.Inv ∧ State.reset.TextInv

/-- 10_state.md R20: every step keeps the invariants, from every state that meets them. -/
def Obligations.StepKeepsTheInvariants : Prop :=
  ∀ s t, s.Inv → step s = .next t → t.Inv

/-- 10_state.md R17: every step keeps what the rule says of the text: each character in 32 to 95, the last
never `'@'`. -/
def Obligations.StepKeepsTheTextInvariant : Prop :=
  ∀ s t, s.TextInv → step s = .next t → t.TextInv

/-- 60_exceptions.md R108: from every state that meets the invariants every word is answered, and a step on it
is one of three: the command completes with its full effect and its OK response; a fault is taken, with
the effect of R99 only; in FAULT the word is answered ERR and nothing changes (R102). No step stops. -/
def Obligations.NoThirdOutcome : Prop :=
  ∀ s w rest, s.Inv → s.pending = .command w :: rest →
    (∃ i t, decode w = .ok i ∧ (s.phase = .fault → i = .clr) ∧ step s = .next t ∧ t.phase ≠ .fault ∧
      FullEffect i { s with pending := rest } t) ∨
    (s.phase ≠ .fault ∧ ∃ f info, f ≠ .none ∧ step s = .next
      { s with
        err := f, einfo := info, phase := .fault, pending := rest
        responses := s.responses ++ [.err f] }) ∨
    (s.phase = .fault ∧ w ≠ 0x0000 ∧ step s = .next
      { s with pending := rest, responses := s.responses ++ [.err s.err] })

/-! ## The buffer, byte by byte and field by field -/

/-- 41_cursor.md R77: the byte-level extraction equals the bit-level one, and every byte it reads exists. -/
def Obligations.ByteExtractionEqualsBitExtraction : Prop :=
  ∀ (m : Memory) a w, 1 ≤ w → w ≤ 32 → a + w ≤ m.length →
    extractBytes m m.length (a / 8) (a % 8) w = extract m a w ∧
    a / 8 + ceil8 (a % 8 + w) ≤ ceil8 m.length ∧
    ceil8 (a % 8 + w) ≤ 5 ∧ (ceil8 (a % 8 + w) = 5 → 26 ≤ w ∧ 33 ≤ a % 8 + w)

/-- 20_memory.md R33: two adjacent reads give the value of the joined one. -/
def Obligations.AdjacentReadsJoin : Prop :=
  ∀ (m : Memory) a n1 n2, a + n1 + n2 ≤ m.length →
    extract m a (n1 + n2) = extract m a n1 * 2 ^ n2 + extract m (a + n1) n2

/-! ## Sequences of commands -/

/-- 40_armor.md R69: `UNARMOR "s", f`, from any state, ends as `Unarmor(s, f)` says. -/
def Obligations.UnarmorSequenceIsUnarmor : Prop :=
  ∀ (text : List Byte) (f : Operand) s rest, f.toNat < 8 → 6 * text.length ≤ Config.capBits →
    s.pending = asInputs (unarmorCommands text f) ++ rest →
    let oks (n : Nat) : List Response := List.replicate n (.ok 0)
    ∃ t, Host.Core.run core (text.length + 2) s = .next t ∧ t.pending = rest ∧
      match unarmor text f.toNat with
      | .invalidArmorCharacter c =>
        t.phase = .fault ∧ t.err = .invalidArmorCharacter ∧ t.einfo = c.setWidth 32 ∧
        t.responses = s.responses ++ oks (1 + legalPrefix text) ++
          List.replicate (text.length + 1 - legalPrefix text) (.err .invalidArmorCharacter)
      | .noMeaning =>
        t.phase = .fault ∧ t.err = .invalidOperand ∧
        t.responses = s.responses ++ oks (1 + text.length) ++ [.err .invalidOperand]
      | .buffer b =>
        t.phase = .ready ∧ t.pos = 0 ∧ t.bits = b.bits ∧ t.len.toNat = b.len ∧ t.image = b.bytes ∧
        b.bits.length = b.len ∧
        t.responses = s.responses ++ oks (1 + text.length) ++ [.ok (BitVec.ofNat 32 b.len)]

/-- 40_armor.md R69, last sentence: a text longer than the capacity whose first `CAP_BITS / 6` characters are
legal, and whose next one is, ends in FAULT with CapacityExceeded. -/
def Obligations.UnarmorBeyondTheCapacity : Prop :=
  ∀ (text : List Byte) (f : Operand) s rest, f.toNat < 8 → 6 * text.length > Config.capBits →
    Config.capBits / 6 < legalPrefix text →
    s.pending = asInputs (unarmorCommands text f) ++ rest →
    ∃ t, Host.Core.run core (text.length + 2) s = .next t ∧ t.phase = .fault ∧
      t.err = .capacityExceeded ∧ t.nch.toNat = Config.capBits / 6

/-- 42_text.md R89: text packed into armor comes back, its trailing `'@'` removed. -/
def Obligations.TextRoundTrip : Prop :=
  ∀ (text : List Byte) s rest, text.length ≤ 42 → 6 * text.length ≤ Config.capBits →
    (∀ c ∈ text, 32 ≤ c.toNat ∧ c.toNat ≤ 95) →
    s.pending = asInputs (unarmorCommands (armorOf text) 0 ++
      [.taket (BitVec.ofNat 12 (6 * text.length))]) ++ rest →
    ∃ t, Host.Core.run core (text.length + 3) s = .next t ∧ t.phase = .ready ∧
      t.text = text.rdropWhile (· == 64) ∧
      t.responses.getLast? = some (.okText t.res (text.rdropWhile (· == 64))) ∧
      t.pos.toNat = 6 * text.length ∧ t.len.toNat = 6 * text.length

/-- 40_armor.md R63, R71: after CLR nothing of the earlier state influences the block or a response. -/
def Obligations.ClrForgetsEarlierMessages : Prop :=
  ∀ s1 s2 rest, s1.pending = .command 0x0000 :: rest → s2.pending = .command 0x0000 :: rest →
    ∀ n t1, Host.Core.run core (n + 1) s1 = .next t1 →
      ∃ rs, t1.responses = s1.responses ++ rs ∧
        Host.Core.run core (n + 1) s2 = .next { t1 with responses := s2.responses ++ rs }

/-- 10_state.md R25: in FAULT the kept values and EINFO are unobservable: two states in FAULT with the same
ERR, whatever else they hold, answer every sequence of inputs alike. -/
def Obligations.FaultHidesTheKeptValues : Prop :=
  ∀ s1 s2, s1.phase = .fault → s2.phase = .fault → s1.err = s2.err →
    s1.pending = s2.pending → s1.responses = s2.responses →
    ∀ n, ∃ t1 t2, Host.Core.run core n s1 = .next t1 ∧ Host.Core.run core n s2 = .next t2 ∧
      t1.responses = t2.responses

/-- 60_exceptions.md R107, 10_state.md R27: instances share nothing and need no coordination. A step of one
instance is that block's own step and leaves the others as they were; under any schedule each instance ends
where its own run of as many steps ends; instances that meet the invariants can be scheduled in any way; two
steps of different instances commute. That the instances have one capacity is log entry 18's choice. -/
def Obligations.InstancesStepIndependently : Prop :=
  (∀ (sys : System) k s t, sys[k]? = some s → step s = .next t →
    ∃ sys', System.stepAt sys k = some sys' ∧ sys'.length = sys.length ∧ sys'[k]? = some t ∧
      ∀ j, j ≠ k → sys'[j]? = sys[j]?) ∧
  (∀ (sys : System) schedule sys', System.runSchedule sys schedule = some sys' →
    ∀ k (s : State), sys[k]? = some s →
      ∃ t : State, Host.Core.run core (schedule.count k) s = .next t ∧ sys'[k]? = some t) ∧
  (∀ sys : System, (∀ s ∈ sys, s.Inv) → ∀ schedule : List Nat, (∀ k ∈ schedule, k < sys.length) →
    ∃ sys', System.runSchedule sys schedule = some sys' ∧ ∀ s ∈ sys', s.Inv) ∧
  ∀ (sys : System) j k, j ≠ k →
    (System.stepAt sys j).bind (System.stepAt · k) = (System.stepAt sys k).bind (System.stepAt · j) ∧
    ∀ sys', System.stepAt sys j = some sys' → sys'[k]? = sys[k]?
end

