-- ==== Sys2Proof/Laws/Bits.lean ====
section
/-!
SUPPORT. Laws/Bits.lean: the laws of the bit-string notation (00_scope.md R7).
-/

namespace Sys2Proof.Machine

/-- Reading a concatenation: the first part is the more significant. -/
theorem val_append (s t : List Bool) : val (s ++ t) = val s * 2 ^ t.length + val t := by
  induction s with
  | nil => simp [val]
  | cons b s ih =>
    simp only [List.cons_append, val, ih, List.length_append, pow_add]
    ring

/-- `val(s) < 2^|s|`. -/
theorem val_lt (s : List Bool) : val s < 2 ^ s.length := by
  induction s with
  | nil => simp [val]
  | cons b s ih =>
    have hb : b.toNat ≤ 1 := by cases b <;> simp
    have : b.toNat * 2 ^ s.length ≤ 1 * 2 ^ s.length := Nat.mul_le_mul_right _ hb
    simp only [val, List.length_cons, pow_succ]
    omega

@[simp] theorem bitsOf_length (n v : Nat) : (bitsOf n v).length = n := by
  induction n with
  | zero => rfl
  | succ n ih => simp [bitsOf, ih]

/-- `val(bits_n(v))` is the low `n` bits of `v`. -/
theorem val_bitsOf (n v : Nat) : val (bitsOf n v) = v % 2 ^ n := by
  induction n with
  | zero => simp [bitsOf, val, Nat.mod_one]
  | succ n ih => rw [bitsOf, val, ih, bitsOf_length, Nat.toNat_testBit, Nat.mod_pow_succ]; ring

theorem slice_length (s : List Bool) (a n : Nat) (h : a + n ≤ s.length) : (slice s a n).length = n := by
  simp [slice]; omega

/-- A field of `n` bits is below `2^n`. -/
theorem extract_lt (m : Memory) (a n : Nat) : extract m a n < 2 ^ n :=
  lt_of_lt_of_le (val_lt _) (Nat.pow_le_pow_right (by omega) (by simp [slice]))

@[simp] theorem groups_length (m : Memory) (a n : Nat) : (groups m a n).length = n := by
  induction n generalizing a with
  | zero => rfl
  | succ n ih => simp [groups, ih]

/-- Trimming never lengthens. -/
theorem trim_length_le (cs : List Byte) : (trim cs).length ≤ cs.length := by
  simpa [trim] using (List.dropWhile_sublist (l := cs.reverse) (· == 64)).length_le

/-- Trimming keeps the head of the string up to and including its last character that is not `'@'`
(42_text.md R85). -/
theorem trim_eq_take (cs : List Byte) :
    ∃ l ≤ cs.length, trim cs = cs.take l ∧ (0 < l → cs[l - 1]? ≠ some 64) ∧
      ∀ j, l ≤ j → j < cs.length → cs[j]? = some 64 := by
  induction cs using List.reverseRecOn with
  | nil => exact ⟨0, by simp [trim]⟩
  | append_singleton cs c ih =>
    by_cases hc : c = 64#8
    · obtain ⟨l, hl, ht, hlast, hpad⟩ := ih
      refine ⟨l, by simp; omega, ?_, fun h0 => ?_, fun j hj hj' => ?_⟩
      · rw [List.take_append_of_le_length hl, ← ht]
        simp [trim, hc]
      · rw [List.getElem?_append_left (by omega)]
        exact hlast h0
      · by_cases h : j < cs.length
        · rw [List.getElem?_append_left h]
          exact hpad j hj h
        · obtain rfl : j = cs.length := by simp at hj'; omega
          simp [hc]
    · refine ⟨(cs ++ [c]).length, le_rfl, ?_, ?_, fun j h1 h2 => by omega⟩
      · simp [trim, List.dropWhile_cons, hc]
      · simpa using hc

/-- Sign extension is the two's-complement reading of the field (00_scope.md R7, 41_cursor.md R75). -/
theorem sext32_toInt (v w : Nat) (hv : v < 2 ^ w) (h1 : 1 ≤ w) (h2 : w ≤ 32) :
    (sext32 v w).toInt = signedOf w v := by
  rw [sext32, signedOf, BitVec.toInt_signExtend_of_le h2, BitVec.toInt_eq_toNat_cond,
    BitVec.toNat_ofNat, Nat.mod_eq_of_lt hv]
  obtain ⟨k, rfl⟩ : ∃ k, w = k + 1 := ⟨w - 1, by omega⟩
  simp only [Nat.add_sub_cancel, pow_succ]
  push_cast
  by_cases hc : v < 2 ^ k
  · rw [if_pos (by omega), if_pos hc]
  · rw [if_neg (by omega), if_neg hc]

end Sys2Proof.Machine
end

