-- ==== Sys2Proof/Laws/Decode.lean ====
section
/-!
SUPPORT. Laws/Decode.lean: the two fields of a command word (30_encoding.md R44).
-/

namespace Sys2Proof

/-- R45: well formed means that the operand fits its field. -/
theorem wellFormed_iff (i : Instr) :
    i.wellFormed = true ↔ i.operand.toNat < 2 ^ i.operandBits := by
  simp [Instr.wellFormed]

theorem opField_append (op : BitVec 4) (arg : Operand) : opField (op ++ arg) = op := by
  apply BitVec.eq_of_getLsbD_eq
  intro k hk
  simp only [opField, BitVec.getLsbD_extractLsb', BitVec.getLsbD_append]
  simp [hk]

theorem argField_append (op : BitVec 4) (arg : Operand) : argField (op ++ arg) = arg := by
  apply BitVec.eq_of_getLsbD_eq
  intro k hk
  simp only [argField, BitVec.getLsbD_extractLsb', BitVec.getLsbD_append]
  simp [hk]

@[simp] theorem opField_encode (i : Instr) : opField (encode i) = i.opcode := opField_append _ _

@[simp] theorem argField_encode (i : Instr) : argField (encode i) = i.operand := argField_append _ _

/-- A word is its two fields. -/
theorem append_fields (w : CommandWord) : (opField w ++ argField w : BitVec 16) = w := by
  apply BitVec.eq_of_getLsbD_eq
  intro k hk
  simp only [opField, argField, BitVec.getLsbD_append, BitVec.getLsbD_extractLsb']
  by_cases h : k < 12
  · simp [h]
  · have : k - 12 < 4 := by omega
    have h' : 12 + (k - 12) = k := by omega
    simp [h, this, h']

/-- The must-be-zero test says that the operand fits its field (R45). -/
theorem mbzClear_iff (n : Nat) (arg : Operand) : mbzClear n arg = true ↔ arg.toNat < 2 ^ n := by
  simp [mbzClear, Nat.shiftRight_eq_div_pow, Nat.div_eq_zero_iff]

end Sys2Proof
end

