-- ==== Sys2Proof/Laws/State.lean ====
section
/-!
SUPPORT. Laws/State.lean: one lemma per field per update of the shared operations of Machine/Ops.lean, so
that no proof unfolds a record update.
-/

namespace Sys2Proof.Machine

variable (s : State)

/-! ## `respondOk` -/

@[simp] theorem State.respondOk_phase : (s.respondOk).phase = s.phase := rfl
@[simp] theorem State.respondOk_bits : (s.respondOk).bits = s.bits := rfl
@[simp] theorem State.respondOk_nch : (s.respondOk).nch = s.nch := rfl
@[simp] theorem State.respondOk_len : (s.respondOk).len = s.len := rfl
@[simp] theorem State.respondOk_pos : (s.respondOk).pos = s.pos := rfl
@[simp] theorem State.respondOk_res : (s.respondOk).res = s.res := rfl
@[simp] theorem State.respondOk_txt : (s.respondOk).txt = s.txt := rfl
@[simp] theorem State.respondOk_tlen : (s.respondOk).tlen = s.tlen := rfl
@[simp] theorem State.respondOk_err : (s.respondOk).err = s.err := rfl
@[simp] theorem State.respondOk_einfo : (s.respondOk).einfo = s.einfo := rfl
@[simp] theorem State.respondOk_pending : (s.respondOk).pending = s.pending := rfl
@[simp] theorem State.respondOk_responses : (s.respondOk).responses = s.responses ++ [.ok s.res] := rfl

/-! ## `respondText` -/

@[simp] theorem State.respondText_phase : (s.respondText).phase = s.phase := rfl
@[simp] theorem State.respondText_bits : (s.respondText).bits = s.bits := rfl
@[simp] theorem State.respondText_nch : (s.respondText).nch = s.nch := rfl
@[simp] theorem State.respondText_len : (s.respondText).len = s.len := rfl
@[simp] theorem State.respondText_pos : (s.respondText).pos = s.pos := rfl
@[simp] theorem State.respondText_res : (s.respondText).res = s.res := rfl
@[simp] theorem State.respondText_txt : (s.respondText).txt = s.txt := rfl
@[simp] theorem State.respondText_tlen : (s.respondText).tlen = s.tlen := rfl
@[simp] theorem State.respondText_err : (s.respondText).err = s.err := rfl
@[simp] theorem State.respondText_einfo : (s.respondText).einfo = s.einfo := rfl
@[simp] theorem State.respondText_pending : (s.respondText).pending = s.pending := rfl
@[simp] theorem State.respondText_responses : (s.respondText).responses = s.responses ++ [.okText s.res s.text] := rfl

/-! ## `respondErr` -/

@[simp] theorem State.respondErr_phase : (s.respondErr).phase = s.phase := rfl
@[simp] theorem State.respondErr_bits : (s.respondErr).bits = s.bits := rfl
@[simp] theorem State.respondErr_nch : (s.respondErr).nch = s.nch := rfl
@[simp] theorem State.respondErr_len : (s.respondErr).len = s.len := rfl
@[simp] theorem State.respondErr_pos : (s.respondErr).pos = s.pos := rfl
@[simp] theorem State.respondErr_res : (s.respondErr).res = s.res := rfl
@[simp] theorem State.respondErr_txt : (s.respondErr).txt = s.txt := rfl
@[simp] theorem State.respondErr_tlen : (s.respondErr).tlen = s.tlen := rfl
@[simp] theorem State.respondErr_err : (s.respondErr).err = s.err := rfl
@[simp] theorem State.respondErr_einfo : (s.respondErr).einfo = s.einfo := rfl
@[simp] theorem State.respondErr_pending : (s.respondErr).pending = s.pending := rfl
@[simp] theorem State.respondErr_responses : (s.respondErr).responses = s.responses ++ [.err s.err] := rfl

/-! ## `raise` -/

@[simp] theorem State.raise_phase (c : FaultCode) (i : Word) : (s.raise c i).phase = .fault := rfl
@[simp] theorem State.raise_bits (c : FaultCode) (i : Word) : (s.raise c i).bits = s.bits := rfl
@[simp] theorem State.raise_nch (c : FaultCode) (i : Word) : (s.raise c i).nch = s.nch := rfl
@[simp] theorem State.raise_len (c : FaultCode) (i : Word) : (s.raise c i).len = s.len := rfl
@[simp] theorem State.raise_pos (c : FaultCode) (i : Word) : (s.raise c i).pos = s.pos := rfl
@[simp] theorem State.raise_res (c : FaultCode) (i : Word) : (s.raise c i).res = s.res := rfl
@[simp] theorem State.raise_txt (c : FaultCode) (i : Word) : (s.raise c i).txt = s.txt := rfl
@[simp] theorem State.raise_tlen (c : FaultCode) (i : Word) : (s.raise c i).tlen = s.tlen := rfl
@[simp] theorem State.raise_err (c : FaultCode) (i : Word) : (s.raise c i).err = c := rfl
@[simp] theorem State.raise_einfo (c : FaultCode) (i : Word) : (s.raise c i).einfo = i := rfl
@[simp] theorem State.raise_pending (c : FaultCode) (i : Word) : (s.raise c i).pending = s.pending := rfl
@[simp] theorem State.raise_responses (c : FaultCode) (i : Word) : (s.raise c i).responses = s.responses ++ [.err c] := rfl

/-! ## `cleared` -/

@[simp] theorem State.cleared_phase : (s.cleared).phase = .fill := rfl
@[simp] theorem State.cleared_bits : (s.cleared).bits = [] := rfl
@[simp] theorem State.cleared_nch : (s.cleared).nch = 0 := rfl
@[simp] theorem State.cleared_len : (s.cleared).len = 0 := rfl
@[simp] theorem State.cleared_pos : (s.cleared).pos = 0 := rfl
@[simp] theorem State.cleared_res : (s.cleared).res = 0 := rfl
@[simp] theorem State.cleared_txt : (s.cleared).txt = Vector.replicate 42 0 := rfl
@[simp] theorem State.cleared_tlen : (s.cleared).tlen = 0 := rfl
@[simp] theorem State.cleared_err : (s.cleared).err = .none := rfl
@[simp] theorem State.cleared_einfo : (s.cleared).einfo = 0 := rfl
@[simp] theorem State.cleared_pending : (s.cleared).pending = s.pending := rfl
@[simp] theorem State.cleared_responses : (s.cleared).responses = s.responses := rfl

/-! ## `setRes` -/

@[simp] theorem State.setRes_phase (v : Word) : (s.setRes v).phase = s.phase := rfl
@[simp] theorem State.setRes_bits (v : Word) : (s.setRes v).bits = s.bits := rfl
@[simp] theorem State.setRes_nch (v : Word) : (s.setRes v).nch = s.nch := rfl
@[simp] theorem State.setRes_len (v : Word) : (s.setRes v).len = s.len := rfl
@[simp] theorem State.setRes_pos (v : Word) : (s.setRes v).pos = s.pos := rfl
@[simp] theorem State.setRes_res (v : Word) : (s.setRes v).res = v := rfl
@[simp] theorem State.setRes_txt (v : Word) : (s.setRes v).txt = s.txt := rfl
@[simp] theorem State.setRes_tlen (v : Word) : (s.setRes v).tlen = s.tlen := rfl
@[simp] theorem State.setRes_err (v : Word) : (s.setRes v).err = s.err := rfl
@[simp] theorem State.setRes_einfo (v : Word) : (s.setRes v).einfo = s.einfo := rfl
@[simp] theorem State.setRes_pending (v : Word) : (s.setRes v).pending = s.pending := rfl
@[simp] theorem State.setRes_responses (v : Word) : (s.setRes v).responses = s.responses := rfl

/-! ## `advance` -/

@[simp] theorem State.advance_phase (w : Nat) : (s.advance w).phase = s.phase := rfl
@[simp] theorem State.advance_bits (w : Nat) : (s.advance w).bits = s.bits := rfl
@[simp] theorem State.advance_nch (w : Nat) : (s.advance w).nch = s.nch := rfl
@[simp] theorem State.advance_len (w : Nat) : (s.advance w).len = s.len := rfl
@[simp] theorem State.advance_pos (w : Nat) : (s.advance w).pos = s.pos + BitVec.ofNat 16 w := rfl
@[simp] theorem State.advance_res (w : Nat) : (s.advance w).res = s.res := rfl
@[simp] theorem State.advance_txt (w : Nat) : (s.advance w).txt = s.txt := rfl
@[simp] theorem State.advance_tlen (w : Nat) : (s.advance w).tlen = s.tlen := rfl
@[simp] theorem State.advance_err (w : Nat) : (s.advance w).err = s.err := rfl
@[simp] theorem State.advance_einfo (w : Nat) : (s.advance w).einfo = s.einfo := rfl
@[simp] theorem State.advance_pending (w : Nat) : (s.advance w).pending = s.pending := rfl
@[simp] theorem State.advance_responses (w : Nat) : (s.advance w).responses = s.responses := rfl

/-! ## `setText` -/

@[simp] theorem State.setText_phase (x : List Byte) : (s.setText x).phase = s.phase := rfl
@[simp] theorem State.setText_bits (x : List Byte) : (s.setText x).bits = s.bits := rfl
@[simp] theorem State.setText_nch (x : List Byte) : (s.setText x).nch = s.nch := rfl
@[simp] theorem State.setText_len (x : List Byte) : (s.setText x).len = s.len := rfl
@[simp] theorem State.setText_pos (x : List Byte) : (s.setText x).pos = s.pos := rfl
@[simp] theorem State.setText_res (x : List Byte) : (s.setText x).res = s.res := rfl
@[simp] theorem State.setText_tlen (x : List Byte) : (s.setText x).tlen = BitVec.ofNat 6 x.length := rfl
@[simp] theorem State.setText_err (x : List Byte) : (s.setText x).err = s.err := rfl
@[simp] theorem State.setText_einfo (x : List Byte) : (s.setText x).einfo = s.einfo := rfl
@[simp] theorem State.setText_pending (x : List Byte) : (s.setText x).pending = s.pending := rfl
@[simp] theorem State.setText_responses (x : List Byte) : (s.setText x).responses = s.responses := rfl

@[simp] theorem State.setText_txt (x : List Byte) : (s.setText x).txt = textFile x := rfl

/-- The text file: the text, then zeros (42_text.md R84). -/
theorem textFile_toList (x : List Byte) (h : x.length ≤ 42) :
    (textFile x).toList = x ++ List.replicate (42 - x.length) 0 := by
  show List.take 42 (x ++ List.replicate 42 0) = _
  rw [List.take_append, List.take_of_length_le h, List.take_replicate, Nat.min_eq_left (by omega)]

/-- The text output after `setText` is the text. -/
theorem State.setText_text (x : List Byte) (h : x.length ≤ 42) : (s.setText x).text = x := by
  have h64 : x.length % 64 = x.length := Nat.mod_eq_of_lt (by omega)
  simp [State.text, textFile_toList x h, h64]

end Sys2Proof.Machine
end

