-- ==== Sys2Proof/Laws/Ops.lean ====
section
/-!
SUPPORT. Laws/Ops.lean: for each shared operation of Machine/Ops.lean, once, everything it can do when it
answers a next state. Proofs cite these instead of unfolding the operation.
-/

namespace Sys2Proof.Machine

/-- `checked`: sticky fault, SequenceError, or the body. -/
theorem checked_next {i : Instr} {s t : State} {body : Result} (h : checked i s body = .next t) :
    (s.phase = .fault ∧ t = s.respondErr) ∨
    (s.phase ≠ .fault ∧ legalIn i s.phase = false ∧ t = s.raise .sequenceError (commandInfo i)) ∨
    (s.phase ≠ .fault ∧ legalIn i s.phase = true ∧ body = .next t) := by
  unfold checked at h
  split at h
  · exact .inl ⟨‹_›, by simpa using h.symm⟩
  · split at h
    · exact .inr (.inr ⟨‹_›, by simp_all, h⟩)
    · exact .inr (.inl ⟨‹_›, by simp_all, by simpa using h.symm⟩)

/-- `checked` in the legal phase is its body. -/
theorem checked_of_legal {i : Instr} {s : State} (body : Result) (hp : s.phase ≠ .fault)
    (hl : legalIn i s.phase = true) : checked i s body = body := by
  simp [checked, hp, hl]

theorem checked_of_fault {i : Instr} {s : State} (body : Result) (hp : s.phase = .fault) :
    checked i s body = .next s.respondErr := by
  simp [checked, hp]

theorem checked_of_illegal {i : Instr} {s : State} (body : Result) (hp : s.phase ≠ .fault)
    (hl : legalIn i s.phase = false) :
    checked i s body = .next (s.raise .sequenceError (commandInfo i)) := by
  simp [checked, hp, hl]

/-- `withOperand`: InvalidOperand, or the body. -/
theorem withOperand_next {i : Instr} {legal : Bool} {s t : State} {body : Result}
    (h : withOperand i legal s body = .next t) :
    (legal = false ∧ t = s.raise .invalidOperand (commandInfo i)) ∨ (legal = true ∧ body = .next t) := by
  cases legal
  · exact .inl ⟨rfl, by simpa [withOperand] using h.symm⟩
  · exact .inr ⟨rfl, by simpa [withOperand] using h⟩

/-- `illegalCommand`: sticky fault, or IllegalCommand. -/
theorem illegalCommand_next {w : CommandWord} {s t : State} (h : illegalCommand w s = .next t) :
    (s.phase = .fault ∧ t = s.respondErr) ∨
    (s.phase ≠ .fault ∧ t = s.raise .illegalCommand (w.setWidth 32)) := by
  unfold illegalCommand at h
  split at h
  · exact .inl ⟨‹_›, by simpa using h.symm⟩
  · exact .inr ⟨‹_›, by simpa using h.symm⟩

/-- A take: one of the four faults' effects, or the field's, with the cursor advanced. -/
theorem take_next {i : Instr} {w : Operand} {legal : Bool} {finish : State → State} {s t : State}
    (h : take i w legal finish s = .next t) :
    (s.phase = .fault ∧ t = s.respondErr) ∨
    (s.phase ≠ .fault ∧ legalIn i s.phase = false ∧ t = s.raise .sequenceError (commandInfo i)) ∨
    (s.phase ≠ .fault ∧ legalIn i s.phase = true ∧ legal = false ∧
      t = s.raise .invalidOperand (commandInfo i)) ∨
    (s.phase ≠ .fault ∧ legalIn i s.phase = true ∧ legal = true ∧ s.remaining < w.toNat ∧
      t = s.raise .insufficientBits (w.setWidth 32)) ∨
    (s.phase ≠ .fault ∧ legalIn i s.phase = true ∧ legal = true ∧ w.toNat ≤ s.remaining ∧
      s.pos.toNat + w.toNat ≤ s.bits.length ∧ t = (finish s).advance w.toNat) := by
  unfold take at h
  rcases checked_next h with h | h | ⟨hp, hl, h⟩
  · exact .inl h
  · exact .inr (.inl h)
  · rcases withOperand_next h with ⟨ho, h⟩ | ⟨ho, h⟩
    · exact .inr (.inr (.inl ⟨hp, hl, ho, h⟩))
    · split at h
      · exact .inr (.inr (.inr (.inl ⟨hp, hl, ho, by omega, by simpa using h.symm⟩)))
      · split at h
        · next hb =>
          refine .inr (.inr (.inr (.inr ⟨hp, hl, ho, by omega, ?_, by simpa using h.symm⟩)))
          simpa [Memory.holds] using hb
        · cases h

/-- A take in its phase, with a legal operand and enough bits, completes. -/
theorem take_completes {i : Instr} {w : Operand} {legal : Bool} (finish : State → State) {s : State}
    (hp : s.phase ≠ .fault) (hl : legalIn i s.phase = true) (ho : legal = true)
    (hr : w.toNat ≤ s.remaining) (hb : s.pos.toNat + w.toNat ≤ s.bits.length) :
    take i w legal finish s = .next ((finish s).advance w.toNat) := by
  have hr' : ¬ w.toNat > s.remaining := by omega
  simp [take, checked_of_legal _ hp hl, withOperand, ho, hr', Memory.holds, hb]

end Sys2Proof.Machine
end

