-- ==== Sys2Proof/Laws/Exec.lean ====
section
/-!
SUPPORT. Laws/Exec.lean: once, everything one command, one step and one run can do. Claims about all commands
are derived from `exec_next` and `step_command` instead of unfolding the meanings again.
-/

namespace Sys2Proof.Machine

/-- Why `exec i` raises a fault in FILL or READY, with the EINFO it records (60_exceptions.md R91, R101). -/
def Raises (i : Instr) (s : State) (f : FaultCode) (info : Word) : Prop :=
  (f = .sequenceError ∧ info = commandInfo i ∧ legalIn i s.phase = false) ∨
  (legalIn i s.phase = true ∧ f = .invalidOperand ∧ info = commandInfo i ∧ operandLegal s i = false) ∨
  (legalIn i s.phase = true ∧ operandLegal s i = true ∧
    ((∃ c, i = .pushc c ∧ f = .invalidArmorCharacter ∧ info = c.setWidth 32 ∧ sixbit c.toNat = none) ∨
     (∃ c v, i = .pushc c ∧ f = .capacityExceeded ∧ info = commandInfo i ∧ sixbit c.toNat = some v ∧
        Config.capBits < 6 * (s.nch.toNat + 1)) ∨
     (∃ w, IsTake i w ∧ f = .insufficientBits ∧ info = w.setWidth 32 ∧ s.remaining < w.toNat)))

/-- The full effect of `i`, other than CLR, when it completes. -/
def Completes (s t : State) : Instr → Prop
  | .clr => False
  | .pushc c => ∃ v, sixbit c.toNat = some v ∧ 6 * (s.nch.toNat + 1) ≤ Config.capBits ∧
      t = { s with bits := s.bits.append v, nch := s.nch + 1 }.respondOk
  | .sealf f =>
      t = { s with
        bits := s.bits.truncate (6 * s.nch.toNat - f.toNat)
        len := BitVec.ofNat 16 (6 * s.nch.toNat - f.toNat), pos := 0, phase := .ready
        res := zext32 (6 * s.nch.toNat - f.toNat) }.respondOk
  | .rdb n => min (8 * n.toNat + 8) s.len.toNat ≤ s.bits.length ∧
      t = (s.setRes (zext32 (byteAt s.bits s.len.toNat n.toNat).toNat)).respondOk
  | .rem => t = (s.setRes (zext32 s.remaining)).respondOk
  | .takeu w => w.toNat ≤ s.remaining ∧ s.pos.toNat + w.toNat ≤ s.bits.length ∧
      t = (s.setRes (zext32 (extract s.bits s.pos.toNat w.toNat))).respondOk.advance w.toNat
  | .takes w => w.toNat ≤ s.remaining ∧ s.pos.toNat + w.toNat ≤ s.bits.length ∧
      t = (s.setRes (sext32 (extract s.bits s.pos.toNat w.toNat) w.toNat)).respondOk.advance w.toNat
  | .taket w => w.toNat ≤ s.remaining ∧ s.pos.toNat + w.toNat ≤ s.bits.length ∧
      t = ((s.setText (decodeText s.bits s.pos.toNat w.toNat)).setRes
        (zext32 (decodeText s.bits s.pos.toNat w.toNat).length)).respondText.advance w.toNat
  | .sixa v => t = (s.setRes (zext32 (ascii6 v.toNat))).respondOk

/-- What one command can do when it answers a next state: CLR; the sticky fault's answer; fault entry; its
full effect. There is nothing else. -/
theorem exec_next {i : Instr} {s t : State} (h : exec i s = .next t) :
    (i = .clr ∧ t = s.cleared.respondOk) ∨
    (i ≠ .clr ∧ s.phase = .fault ∧ t = s.respondErr) ∨
    (i ≠ .clr ∧ s.phase ≠ .fault ∧ ∃ f info, Raises i s f info ∧ t = s.raise f info) ∨
    (i ≠ .clr ∧ s.phase ≠ .fault ∧ legalIn i s.phase = true ∧ operandLegal s i = true ∧
      Completes s t i) := by
  have takes {w : Operand} {legal : Bool} {finish : State → State} (hc : i ≠ .clr) (hw : IsTake i w)
      (hl : operandLegal s i = legal) (h : take i w legal finish s = .next t) :
      (i ≠ .clr ∧ s.phase = .fault ∧ t = s.respondErr) ∨
      (i ≠ .clr ∧ s.phase ≠ .fault ∧ ∃ f info, Raises i s f info ∧ t = s.raise f info) ∨
      (i ≠ .clr ∧ s.phase ≠ .fault ∧ legalIn i s.phase = true ∧ operandLegal s i = true ∧
        w.toNat ≤ s.remaining ∧ s.pos.toNat + w.toNat ≤ s.bits.length ∧
        t = (finish s).advance w.toNat) := by
    rcases take_next h with ⟨hp, ht⟩ | ⟨hp, hq, ht⟩ | ⟨hp, hq, ho, ht⟩ | ⟨hp, hq, ho, hr, ht⟩ |
      ⟨hp, hq, ho, hr, hb, ht⟩
    · exact .inl ⟨hc, hp, ht⟩
    · exact .inr (.inl ⟨hc, hp, _, _, .inl ⟨rfl, rfl, hq⟩, ht⟩)
    · exact .inr (.inl ⟨hc, hp, _, _, .inr (.inl ⟨hq, rfl, rfl, hl.trans ho⟩), ht⟩)
    · exact .inr (.inl ⟨hc, hp, _, _,
        .inr (.inr ⟨hq, hl.trans ho, .inr (.inr ⟨w, hw, rfl, rfl, hr⟩)⟩), ht⟩)
    · exact .inr (.inr ⟨hc, hp, hq, hl.trans ho, hr, hb, ht⟩)
  cases i with
  | clr => exact .inl ⟨rfl, by simpa [exec, execClr] using h.symm⟩
  | pushc c =>
    refine .inr ?_
    rcases checked_next (show checked _ s _ = _ from h) with ⟨hp, ht⟩ | ⟨hp, hq, ht⟩ | ⟨hp, hq, h⟩
    · exact .inl ⟨by simp, hp, ht⟩
    · exact .inr (.inl ⟨by simp, hp, _, _, .inl ⟨rfl, rfl, hq⟩, ht⟩)
    · split at h
      · next hv =>
        exact .inr (.inl ⟨by simp, hp, _, _, .inr (.inr ⟨hq, rfl, .inl ⟨c, rfl, rfl, rfl, hv⟩⟩),
          by simpa using h.symm⟩)
      · next v hv =>
        split at h
        · next hcap =>
          exact .inr (.inl ⟨by simp, hp, _, _,
            .inr (.inr ⟨hq, rfl, .inr (.inl ⟨c, v, rfl, rfl, rfl, hv, hcap⟩)⟩), by simpa using h.symm⟩)
        · next hcap =>
          exact .inr (.inr ⟨by simp, hp, hq, rfl, v, hv, by simpa using hcap, by simpa using h.symm⟩)
  | sealf f =>
    refine .inr ?_
    rcases checked_next (show checked _ s _ = _ from h) with ⟨hp, ht⟩ | ⟨hp, hq, ht⟩ | ⟨hp, hq, h⟩
    · exact .inl ⟨by simp, hp, ht⟩
    · exact .inr (.inl ⟨by simp, hp, _, _, .inl ⟨rfl, rfl, hq⟩, ht⟩)
    · rcases withOperand_next h with ⟨ho, ht⟩ | ⟨ho, h⟩
      · exact .inr (.inl ⟨by simp, hp, _, _, .inr (.inl ⟨hq, rfl, rfl, ho⟩), ht⟩)
      · exact .inr (.inr ⟨by simp, hp, hq, ho, by simpa [Completes] using h.symm⟩)
  | rdb n =>
    refine .inr ?_
    rcases checked_next (show checked _ s _ = _ from h) with ⟨hp, ht⟩ | ⟨hp, hq, ht⟩ | ⟨hp, hq, h⟩
    · exact .inl ⟨by simp, hp, ht⟩
    · exact .inr (.inl ⟨by simp, hp, _, _, .inl ⟨rfl, rfl, hq⟩, ht⟩)
    · rcases withOperand_next h with ⟨ho, ht⟩ | ⟨ho, h⟩
      · exact .inr (.inl ⟨by simp, hp, _, _, .inr (.inl ⟨hq, rfl, rfl, ho⟩), ht⟩)
      · refine .inr (.inr ⟨by simp, hp, hq, ho, ?_⟩)
        simp only [State.readByte, Memory.holds] at h
        split at h
        · cases h
        · next b hb =>
          simp only [Option.ite_none_right_eq_some, Option.some.injEq, decide_eq_true_eq] at hb
          obtain ⟨hb, rfl⟩ := hb
          exact ⟨by simpa using hb, by simpa using h.symm⟩
  | rem =>
    refine .inr ?_
    rcases checked_next (show checked _ s _ = _ from h) with ⟨hp, ht⟩ | ⟨hp, hq, ht⟩ | ⟨hp, hq, h⟩
    · exact .inl ⟨by simp, hp, ht⟩
    · exact .inr (.inl ⟨by simp, hp, _, _, .inl ⟨rfl, rfl, hq⟩, ht⟩)
    · exact .inr (.inr ⟨by simp, hp, hq, rfl, by simpa [Completes] using h.symm⟩)
  | takeu w =>
    simp only [exec, execTakeu] at h
    exact .inr (takes (by simp) (.inl rfl) rfl h)
  | takes w =>
    simp only [exec, execTakes] at h
    exact .inr (takes (by simp) (.inr (.inl rfl)) rfl h)
  | taket w =>
    simp only [exec, execTaket] at h
    exact .inr (takes (by simp) (.inr (.inr rfl)) rfl h)
  | sixa v =>
    refine .inr ?_
    rcases checked_next (show checked _ s _ = _ from h) with ⟨hp, ht⟩ | ⟨hp, hq, ht⟩ | ⟨hp, hq, h⟩
    · exact .inl ⟨by simp, hp, ht⟩
    · exact .inr (.inl ⟨by simp, hp, _, _, .inl ⟨rfl, rfl, hq⟩, ht⟩)
    · exact .inr (.inr ⟨by simp, hp, hq, rfl, by simpa [Completes] using h.symm⟩)

/-- Every raised fault has a code of its own, never None (60_exceptions.md R91). -/
theorem Raises.ne_none {i : Instr} {s : State} {f : FaultCode} {info : Word} (h : Raises i s f info) :
    f ≠ .none := by
  rcases h with ⟨rfl, -⟩ | ⟨-, rfl, -⟩ | ⟨-, -, ⟨-, -, rfl, -⟩ | ⟨-, -, -, rfl, -⟩ | ⟨-, -, rfl, -⟩⟩ <;>
    simp

/-- A command that completes takes no fault: the status stays, and the phase too unless it is SEAL. -/
theorem Completes.status {i : Instr} {s t : State} (hp : s.phase ≠ .fault)
    (hl : legalIn i s.phase = true) (h : Completes s t i) :
    t.phase ≠ .fault ∧ t.err = s.err ∧ t.einfo = s.einfo ∧ t.pending = s.pending ∧
      (t.phase = s.phase ∨ s.phase = .fill ∧ t.phase = .ready ∧ ∃ f, i = .sealf f) := by
  cases i with
  | clr => exact h.elim
  | pushc => obtain ⟨_, _, _, rfl⟩ := h; simp [hp]
  | sealf =>
    have hfill : s.phase = .fill := by simpa [legalIn] using hl
    cases h
    simp [hfill]
  | rdb => obtain ⟨_, rfl⟩ := h; simp [hp]
  | rem => cases h; simp [hp]
  | takeu => obtain ⟨_, _, rfl⟩ := h; simp [hp]
  | takes => obtain ⟨_, _, rfl⟩ := h; simp [hp]
  | taket => obtain ⟨_, _, rfl⟩ := h; simp [hp]
  | sixa => cases h; simp [hp]

/-- Outside FAULT, "not legal in the phase" is R97's list. -/
theorem legalIn_eq_false_iff (i : Instr) {p : Phase} (h : p ≠ .fault) :
    legalIn i p = false ↔ outOfPhase p i := by
  cases i <;> cases p <;> simp_all [legalIn, outOfPhase]

/-- `sixbit` is defined on the armor alphabet and nowhere else (30_encoding.md R55, R56). -/
theorem sixbit_eq_none_iff (c : Nat) : sixbit c = none ↔ ¬armorLegal c := by
  unfold sixbit armorLegal
  split
  · simp_all
  · split <;> simp_all

/-- A step on a command word. -/
theorem step_command {s : State} {w : CommandWord} {rest : List Input}
    (h : s.pending = .command w :: rest) :
    step s = match decode w with
      | .ok i => exec i { s with pending := rest }
      | .error _ => illegalCommand w { s with pending := rest } := by
  cases hd : decode w <;> simp [step, h, hd]

/-- A step on the reset event. -/
theorem step_reset {s : State} {rest : List Input} (h : s.pending = .reset :: rest) :
    step s = .next { s with pending := rest }.cleared := by
  simp [step, h, takeReset]

/-- A step with no input. -/
theorem step_nil {s : State} (h : s.pending = []) : step s = .next s := by
  simp [step, h, idle]

/-- One more step at the front of a run. -/
theorem run_succ {s t : State} (n : Nat) (h : step s = .next t) :
    Host.Core.run core (n + 1) s = Host.Core.run core n t := by
  simp only [Host.Core.run, show core.step s = .next t from h]

end Sys2Proof.Machine
end

