-- ==== Sys2Proof/Laws/Fields.lean ====
section
/-!
SUPPORT. Laws/Fields.lean: the machine's reads as the sums and lanes the rules write (20_memory.md R30, R31;
42_text.md R83), and how the invariant of 10_state.md R20 depends on the state.
-/

namespace Sys2Proof.Machine

/-- `val` as the sum of 00_scope.md R7. -/
theorem val_eq_sum (s : List Bool) :
    val s = ∑ k ∈ Finset.range s.length, (s.getD k false).toNat * 2 ^ (s.length - 1 - k) := by
  induction s with
  | nil => simp [val]
  | cons b s ih =>
    rw [val, List.length_cons, Finset.sum_range_succ', ih]
    simp only [List.getD_cons_succ, List.getD_cons_zero, Nat.add_sub_cancel, Nat.sub_zero]
    rw [Nat.add_comm]
    congr 1
    refine Finset.sum_congr rfl fun k hk => ?_
    rw [Finset.mem_range] at hk
    congr 2
    omega

/-- `Extract(a, w)` is the sum of 41_cursor.md R76 on bits that exist. -/
theorem extract_eq_fieldValue (m : Memory) (a w : Nat) (h : a + w ≤ m.length) :
    extract m a w = fieldValue m a w := by
  rw [extract, val_eq_sum, slice_length _ _ _ h, fieldValue]
  refine Finset.sum_congr rfl fun k hk => ?_
  rw [Finset.mem_range] at hk
  simp only [slice, List.getD_eq_getElem?_getD]
  rw [List.getElem?_take_of_lt hk, List.getElem?_drop]

/-- Lane `j` of a text field (42_text.md R83). -/
theorem groups_getElem? (m : Memory) (a n j : Nat) (h : j < n) :
    (groups m a n)[j]? = some (extract m (a + 6 * j) 6) := by
  induction n generalizing a j with
  | zero => omega
  | succ n ih =>
    cases j with
    | zero => simp [groups]
    | succ j =>
      rw [groups, List.getElem?_cons_succ, ih _ _ (by omega)]
      congr 2
      ring

/-- A legal text field has at most 42 characters. -/
theorem decodeText_length_le (m : Memory) (a w : Nat) (h : w ≤ 252) : (decodeText m a w).length ≤ 42 := by
  refine (trim_length_le _).trans ?_
  simp only [List.length_map, groups_length, Config.charBits]
  omega

/-- Lane `j` of a text field, mapped, is the character the rules give it (42_text.md R83, R88). -/
theorem lanes_getElem? (m : Memory) (a n j : Nat) (hj : j < n) (h : a + 6 * n ≤ m.length) :
    ((groups m a n).map fun g => BitVec.ofNat 8 (ascii6 g))[j]? = some (laneChar m a j) := by
  rw [List.getElem?_map, groups_getElem? _ _ _ _ hj, extract_eq_fieldValue _ _ _ (by omega)]
  rfl

/-- The decoded text: the mapped lanes up to and including the last one that is not `'@'`
(42_text.md R83, R85). -/
theorem decodeText_eq_lanes (m : Memory) (a w : Nat) (h : a + 6 * (w / 6) ≤ m.length) :
    ∃ l ≤ w / 6, decodeText m a w = (List.range l).map (laneChar m a) ∧
      (0 < l → laneChar m a (l - 1) ≠ 64) ∧ ∀ j, l ≤ j → j < w / 6 → laneChar m a j = 64 := by
  obtain ⟨l, hl, hd, hlast, hpad⟩ :=
    trim_eq_take ((groups m a (w / 6)).map fun g => BitVec.ofNat 8 (ascii6 g))
  simp only [List.length_map, groups_length] at hl hpad
  refine ⟨l, hl, ?_, fun h0 => ?_, fun j hj hj' => ?_⟩
  · refine hd.trans (List.ext_getElem? fun j => ?_)
    by_cases hj : j < l
    · rw [List.getElem?_take_of_lt hj, lanes_getElem? _ _ _ _ (by omega) h, List.getElem?_map,
        List.getElem?_range hj]
      rfl
    · rw [List.getElem?_eq_none (by simp; omega), List.getElem?_eq_none (by simp; omega)]
  · simpa [lanes_getElem? _ _ _ _ (show l - 1 < w / 6 by omega) h] using hlast h0
  · simpa [lanes_getElem? _ _ _ _ hj' h] using hpad j hj hj'

/-- A byte of the image as a number (20_memory.md R31). -/
theorem byteAt_toNat (m : Memory) (len i : Nat) :
    (byteAt m len i).toNat = val ((List.range 8).map fun k => padBit m len (8 * i + k)) := by
  rw [byteAt, BitVec.toNat_ofNat, Nat.mod_eq_of_lt]
  simpa using val_lt ((List.range 8).map fun k => padBit m len (8 * i + k))

/-- Bit `7-k` of the byte made of eight bits is bit `k` of the string (00_scope.md R7). -/
theorem getLsbD_val_eight (b0 b1 b2 b3 b4 b5 b6 b7 : Bool) : ∀ k < 8,
    (BitVec.ofNat 8 (val [b0, b1, b2, b3, b4, b5, b6, b7])).getLsbD (7 - k) =
      [b0, b1, b2, b3, b4, b5, b6, b7].getD k false := by
  cases b0 <;> cases b1 <;> cases b2 <;> cases b3 <;> cases b4 <;> cases b5 <;> cases b6 <;> cases b7 <;>
    decide

/-- Bit `7-k` of byte `i` of the image is `PadBit(8i + k)` (20_memory.md R31). -/
theorem byteAt_getLsbD (m : Memory) (len i k : Nat) (hk : k < 8) :
    (byteAt m len i).getLsbD (7 - k) = padBit m len (8 * i + k) := by
  have h : List.range 8 = [0, 1, 2, 3, 4, 5, 6, 7] := by decide
  simp only [byteAt, h, List.map]
  rw [getLsbD_val_eight _ _ _ _ _ _ _ _ k hk]
  interval_cases k <;> rfl

/-- The invariant speaks of these elements only: RES, EINFO and the port may change freely. -/
theorem State.Inv.congr {s t : State} (h : s.Inv) (hphase : t.phase = s.phase) (hbits : t.bits = s.bits)
    (hnch : t.nch = s.nch) (hlen : t.len = s.len) (hpos : t.pos = s.pos) (htxt : t.txt = s.txt)
    (htlen : t.tlen = s.tlen) (herr : t.err = s.err) : t.Inv := by
  cases s
  cases t
  simp only at *
  subst_vars
  exact ⟨h.capacity, h.characters, h.filling, h.sealed, h.latch, h.textLength, h.textPadding, h.cursor⟩

end Sys2Proof.Machine
end

