-- ==== Sys2Proof/Laws/Effect.lean ====
section
/-!
SUPPORT. Laws/Effect.lean: what a command does when it completes, from the terms of the machine (`Completes`) to
the terms of the rules (`FullEffect`).
-/

namespace Sys2Proof.Machine

/-- The value of a legal armor character, by the two ranges of 30_encoding.md R55. -/
theorem sixbit_value {c v : Nat} (h : sixbit c = some v) :
    v = (if c ≤ 87 then c - 48 else c - 56) ∧ v < 64 := by
  unfold sixbit at h
  split at h
  · cases h; rw [if_pos (by omega)]; omega
  · split at h
    · cases h; rw [if_neg (by omega)]; omega
    · cases h

/-- Byte `j` of a text file is the text's, or 0 past it (42_text.md R84). -/
theorem textFile_getElem (n : Nat) (ch : Nat → Byte) (hn : n ≤ 42) (j : Fin 42) :
    (textFile ((List.range n).map ch))[j] = if j.val < n then ch j.val else 0 := by
  have h : (textFile ((List.range n).map ch)).toList[j.val]? =
      some (if j.val < n then ch j.val else 0) := by
    rw [textFile_toList _ (by simpa using hn)]
    split
    · next hj =>
      rw [List.getElem?_append_left (by simpa using hj), List.getElem?_map, List.getElem?_range hj]
      rfl
    · next hj =>
      rw [List.getElem?_append_right (by simp; omega), List.getElem?_replicate]
      simp
      omega
  simpa using h

/-- A command that completes has the full effect its rule states. -/
theorem Completes.fullEffect {i : Instr} {s t : State} (ho : operandLegal s i = true)
    (h : Completes s t i) : FullEffect i s t := by
  cases i with
  | clr => exact h.elim
  | pushc c =>
    obtain ⟨v, hv, -, rfl⟩ := h
    obtain ⟨hv, h64⟩ := sixbit_value hv
    exact ⟨bitsOf 6 v, by simp, by rw [val_bitsOf, ← hv]; omega, rfl⟩
  | sealf f => exact h
  | rdb n =>
    obtain ⟨-, rfl⟩ := h
    refine ⟨byteAt s.bits s.len.toNat n.toNat, fun k hk => ?_, by simp [State.setRes, State.respondOk, zext32]⟩
    rw [byteAt_getLsbD _ _ _ _ hk]
    by_cases h : 8 * n.toNat + k < s.len.toNat <;> simp [padBit, h]
  | rem =>
    cases h
    exact ⟨zext32 s.remaining, by simp [zext32, State.remaining]; omega, rfl⟩
  | takeu w =>
    obtain ⟨-, hb, rfl⟩ := h
    simp only [operandLegal, takeuOperandOk, Config.wMax, decide_eq_true_eq] at ho
    have hv := (extract_lt s.bits s.pos.toNat w.toNat).trans_le (Nat.pow_le_pow_right (by omega) ho)
    refine ⟨zext32 (extract s.bits s.pos.toNat w.toNat), ?_,
      by simp [State.setRes, State.respondOk, State.advance]⟩
    rw [← extract_eq_fieldValue _ _ _ hb, zext32, BitVec.toNat_ofNat, Nat.mod_eq_of_lt hv]
  | takes w =>
    obtain ⟨-, hb, rfl⟩ := h
    simp only [operandLegal, takesOperandOk, Config.wMax, Config.wMinSigned, Bool.and_eq_true,
      decide_eq_true_eq] at ho
    refine ⟨sext32 (extract s.bits s.pos.toNat w.toNat) w.toNat, ?_,
      by simp [State.setRes, State.respondOk, State.advance]⟩
    rw [sext32_toInt _ _ (extract_lt _ _ _) ho.1 ho.2, extract_eq_fieldValue _ _ _ hb]
    rfl
  | taket w =>
    obtain ⟨-, hb, rfl⟩ := h
    simp only [operandLegal, taketOperandOk, Config.charBits, Config.txtMax, Bool.and_eq_true,
      beq_iff_eq, decide_eq_true_eq] at ho
    obtain ⟨l, hl, hd, hlast, hpad⟩ := decodeText_eq_lanes s.bits s.pos.toNat w.toNat (by omega)
    refine ⟨l, hl, hlast, hpad, _, textFile_getElem l _ (by omega), ?_⟩
    have htext := State.setText_text s ((List.range l).map (laneChar s.bits s.pos.toNat))
      (by simp; omega)
    simp only [hd, State.respondText, State.advance, List.length_map, List.length_range]
    rw [show ((s.setText _).setRes (zext32 l)).text = _ from htext]
    simp [State.setText, State.setRes, zext32]
  | sixa v =>
    cases h
    simp only [FullEffect, ascii6]
    split <;> rfl

end Sys2Proof.Machine
end

