-- ==== Sys2Proof/Laws/Memory.lean ====
section
/-!
SUPPORT. Laws/Memory.lean: the memory operations keep `Memory.wf` (10_state.md R10), and what each leaves in
place (20_memory.md R35).
-/

namespace Sys2Proof.Machine

theorem Memory.wf_iff (m : Memory) : m.wf = true ↔ m.length ≤ Config.capBits := by
  simp [Memory.wf]

/-- The empty buffer (reset, CLR) is well formed. -/
@[simp] theorem Memory.wf_nil : Memory.wf [] = true := by simp [Memory.wf]

theorem reset_memory_wf : State.reset.bits.wf = true := Memory.wf_nil

@[simp] theorem Memory.append_length (m : Memory) (v : Nat) : (m.append v).length = m.length + 6 := by
  simp [Memory.append]

/-- The append keeps the form when PUSHC's capacity test lets it through (40_armor.md R65). -/
theorem Memory.append_wf (m : Memory) (v : Nat) (h : m.length + 6 ≤ Config.capBits) :
    (m.append v).wf = true := by
  simpa [Memory.wf] using h

/-- The truncation keeps the form. -/
theorem Memory.truncate_wf (m : Memory) (n : Nat) (h : m.wf = true) : (m.truncate n).wf = true := by
  simp only [Memory.wf_iff, Memory.truncate, List.length_take] at *
  omega

/-- An append leaves every bit that was there in place. -/
theorem Memory.append_getElem? (m : Memory) (v a : Nat) (h : a < m.length) :
    (m.append v)[a]? = m[a]? := by
  simp [Memory.append, List.getElem?_append_left h]

/-- The appended bits are the six of the sixbit value (20_memory.md R29). -/
theorem Memory.append_drop (m : Memory) (v : Nat) : (m.append v).drop m.length = bitsOf 6 v := by
  simp [Memory.append]

/-- A truncation leaves every bit below the cut in place. -/
theorem Memory.truncate_getElem? (m : Memory) (n a : Nat) (h : a < n) :
    (m.truncate n)[a]? = m[a]? := by
  simp [Memory.truncate, h]

end Sys2Proof.Machine
end

