-- ==== Sys2Proof/Laws/PerInstr.lean ====
section
/-!
SUPPORT. Laws/PerInstr.lean: statements made for every constructor of `Instr`. Family `MapRow`: the word of a
well-formed command matches the row of the opcode map that bears its mnemonic (30_encoding.md R46).
-/

namespace Sys2Proof.Laws.MapRow

/-- The word of `i`, when `i` is well formed, matches its own row of R46. -/
def Statement (i : Instr) : Prop :=
  i.wellFormed = true → ∃ r ∈ opcodeMap, r.mnemonic = i.mnemonic ∧ r.matchesWord (encode i) = true

/-- The row's mask keeps the opcode and the must-be-zero bits: a fact about 12-bit operands. -/
theorem masked (op : BitVec 4) (mask : Operand) (arg : Operand) (h : arg &&& mask = 0) :
    ((op ++ arg : BitVec 16) &&& ((0xF#4 ++ mask : BitVec 16))) = (op ++ 0#12 : BitVec 16) := by
  have h0 (k : Nat) : (arg &&& mask).getLsbD k = false := by simp [h]
  apply BitVec.eq_of_getLsbD_eq
  intro k hk
  simp only [BitVec.getLsbD_and, BitVec.getLsbD_append]
  by_cases hk' : k < 12
  · simpa [hk'] using h0 k
  · have h4 : k - 12 < 4 := by omega
    have hf : (0xF#4).getLsbD (k - 12) = true := by
      have : k - 12 = 0 ∨ k - 12 = 1 ∨ k - 12 = 2 ∨ k - 12 = 3 := by omega
      rcases this with h | h | h | h <;> simp [h]
    simp [hk', hf]

theorem clr : Statement .clr := fun _ => ⟨⟨"CLR", 0xFFFF, 0x0000⟩, by decide, rfl, by decide⟩

theorem rem : Statement .rem := fun _ => ⟨⟨"REM", 0xFFFF, 0x4000⟩, by decide, rfl, by decide⟩

/-- An operand that fits `n` bits has no bit in common with the mask of the bits above. -/
theorem fits_and_mask (n : Nat) (arg : Operand) (h : arg.toNat < 2 ^ n) :
    arg &&& (BitVec.allOnes 12 <<< n) = 0 := by
  apply BitVec.eq_of_getLsbD_eq
  intro k hk
  by_cases hkn : k < n
  · simp [hkn]
  · have : arg.getLsbD k = false := by
      simpa [BitVec.getLsbD] using
        Nat.testBit_lt_two_pow (lt_of_lt_of_le h (Nat.pow_le_pow_right (by omega) (by omega)))
    simp [this]

theorem pushc (c : Operand) : Statement (.pushc c) := fun h =>
  ⟨⟨"PUSHC", 0xFF00, 0x1000⟩, by decide, rfl, by
    simpa [OpcodeRow.matchesWord, encode, Instr.opcode, Instr.operand] using
      masked 1 _ c (fits_and_mask 8 c ((wellFormed_iff _).1 h))⟩

theorem sealf (f : Operand) : Statement (.sealf f) := fun h =>
  ⟨⟨"SEAL", 0xFFF8, 0x2000⟩, by decide, rfl, by
    simpa [OpcodeRow.matchesWord, encode, Instr.opcode, Instr.operand] using
      masked 2 _ f (fits_and_mask 3 f ((wellFormed_iff _).1 h))⟩

theorem rdb (i : Operand) : Statement (.rdb i) := fun h =>
  ⟨⟨"RDB", 0xF000, 0x3000⟩, by decide, rfl, by
    simpa [OpcodeRow.matchesWord, encode, Instr.opcode, Instr.operand] using
      masked 3 _ i (fits_and_mask 12 i ((wellFormed_iff _).1 h))⟩

theorem takeu (w : Operand) : Statement (.takeu w) := fun h =>
  ⟨⟨"TAKEU", 0xFFC0, 0x5000⟩, by decide, rfl, by
    simpa [OpcodeRow.matchesWord, encode, Instr.opcode, Instr.operand] using
      masked 5 _ w (fits_and_mask 6 w ((wellFormed_iff _).1 h))⟩

theorem takes (w : Operand) : Statement (.takes w) := fun h =>
  ⟨⟨"TAKES", 0xFFC0, 0x6000⟩, by decide, rfl, by
    simpa [OpcodeRow.matchesWord, encode, Instr.opcode, Instr.operand] using
      masked 6 _ w (fits_and_mask 6 w ((wellFormed_iff _).1 h))⟩

theorem taket (w : Operand) : Statement (.taket w) := fun h =>
  ⟨⟨"TAKET", 0xFF00, 0x7000⟩, by decide, rfl, by
    simpa [OpcodeRow.matchesWord, encode, Instr.opcode, Instr.operand] using
      masked 7 _ w (fits_and_mask 8 w ((wellFormed_iff _).1 h))⟩

theorem sixa (v : Operand) : Statement (.sixa v) := fun h =>
  ⟨⟨"SIXA", 0xFFC0, 0x8000⟩, by decide, rfl, by
    simpa [OpcodeRow.matchesWord, encode, Instr.opcode, Instr.operand] using
      masked 8 _ v (fits_and_mask 6 v ((wellFormed_iff _).1 h))⟩

end Sys2Proof.Laws.MapRow
end

