-- ==== Sys2Proof/Tests/Slice0.lean ====
section
/-!
SUPPORT. Tests/Slice0.lean: tests of one step or one function each. Expected values are the spec's own:
spec/95_test_vectors.md (the vector is named at each test) or the tables of spec/30_encoding.md.
-/

namespace Sys2Proof.Tests

open Sys2Proof.Machine

/-! ## WellFormed: each check refuses an ill-formed term (30_encoding.md R45) -/

theorem test_wf_pushc : (Instr.pushc 0x100).wellFormed = false := by decide
theorem test_wf_seal : (Instr.sealf 8).wellFormed = false := by decide
theorem test_wf_takeu : (Instr.takeu 64).wellFormed = false := by decide
theorem test_wf_takes : (Instr.takes 64).wellFormed = false := by decide
theorem test_wf_taket : (Instr.taket 256).wellFormed = false := by decide
theorem test_wf_sixa : (Instr.sixa 64).wellFormed = false := by decide
theorem test_wf_accepts : [Instr.clr, .pushc 255, .sealf 7, .rdb 4095, .rem, .takeu 63, .takes 63,
    .taket 255, .sixa 63].all (·.wellFormed) := by decide

/-! ## Decoding: every constructor, words written out bit by bit (R46, R47; vectors E1 to E23) -/

theorem test_decode_clr : decode 0b0000000000000000 = .ok .clr := by decide
theorem test_decode_pushc : decode 0b0001000000110100 = .ok (.pushc 52) := by decide
theorem test_decode_pushc_255 : decode 0b0001000011111111 = .ok (.pushc 255) := by decide
theorem test_decode_seal : decode 0b0010000000000101 = .ok (.sealf 5) := by decide
theorem test_decode_seal_7 : decode 0b0010000000000111 = .ok (.sealf 7) := by decide
theorem test_decode_rdb : decode 0b0011111111111111 = .ok (.rdb 4095) := by decide
theorem test_decode_rem : decode 0b0100000000000000 = .ok .rem := by decide
theorem test_decode_takeu : decode 0b0101000000100000 = .ok (.takeu 32) := by decide
theorem test_decode_takes : decode 0b0110000000011100 = .ok (.takes 28) := by decide
theorem test_decode_taket : decode 0b0111000001111000 = .ok (.taket 120) := by decide
theorem test_decode_sixa : decode 0b1000000000111111 = .ok (.sixa 63) := by decide

/-- E2, E5, E8, E11, E14, E20, E22: a 1 in a must-be-zero bit. -/
theorem test_decode_mbz : [0x0001, 0x1100, 0x2008, 0x4001, 0x5040, 0x7100, 0x8040].all
    (fun w => (decode w).toOption == none) := by decide

/-- E23: opcodes 9 to 15. -/
theorem test_decode_reserved : [0x9000, 0xA000, 0xB000, 0xC000, 0xD000, 0xE000, 0xF000, 0xFFFF].all
    (fun w => decode w == .error (.reservedOpcode (opField w))) := by decide

theorem test_encode_takeu : encode (.takeu 30) = 0x501E := by decide
theorem test_table_word : decodeTableWord 16 0x8013 = some (.sixa 19) := by decide

/-! ## The alphabets (R55, R57) -/

/-- R64's corner cases: the ends of both ranges, and their neighbours. -/
theorem test_sixbit_ends : [48, 87, 96, 119].map sixbit = [some 0, some 39, some 40, some 63] ∧
    [47, 88, 95, 120, 32, 0, 255].all (fun c => sixbit c == none) := by decide

/-- X16. -/
theorem test_ascii6 : [0, 1, 19, 26, 31, 32, 48, 63].map ascii6 = [64, 65, 83, 90, 95, 32, 48, 63] := by
  decide

/-! ## One step at a time -/

/-- A sealed buffer made of sixbit values, `f` fill bits dropped, the cursor at `p`. -/
def ready (sixbits : List Nat) (f p : Nat) : State :=
  let n := 6 * sixbits.length - f
  { State.reset with
    phase := .ready, bits := (sixbits.flatMap (bitsOf 6)).take n
    nch := BitVec.ofNat 16 sixbits.length, len := BitVec.ofNat 16 n, pos := BitVec.ofNat 16 p }

/-- A block in FILL that holds the given sixbit values. -/
def filling (sixbits : List Nat) : State :=
  { State.reset with
    bits := sixbits.flatMap (bitsOf 6), nch := BitVec.ofNat 16 sixbits.length }

/-- One step of the machine on one word. -/
def issue (w : CommandWord) (s : State) : Option State :=
  match step { s with pending := [.command w] } with
  | .next t => some t
  | _ => none

/-- The response of one word, with `POS` after it. -/
def answer (w : CommandWord) (s : State) : Option (List Response × Nat) :=
  (issue w s).map fun t => (t.responses, t.pos.toNat)

/-- Phase, ERR and EINFO after one word. -/
def latch (w : CommandWord) (s : State) : Option (Phase × FaultCode × Word) :=
  (issue w s).map fun t => (t.phase, t.err, t.einfo)

/-- The sixbit values of scenario 1 (V1 step 1). -/
def v1 : List Nat := [4, 0, 3, 31, 60, 38, 17, 62, 7, 13, 49, 15, 11, 55, 15, 25, 41, 24, 21, 40, 4, 25,
  63, 0, 2, 0, 35, 10]

/-- V1 step 3: the byte image. -/
theorem test_image_v1 : (ready v1 0 0).image =
    [0x10, 0x00, 0xDF, 0xF2, 0x64, 0x7E, 0x1C, 0xDC, 0x4F, 0x2F, 0x73, 0xD9, 0xA5, 0x85, 0x68, 0x11,
     0x9F, 0xC0, 0x08, 0x08, 0xCA] := by decide

/-- V1: the MMSI. -/
theorem test_takeu_mmsi : answer 0x501E (ready v1 0 8) = some ([.ok 3669145], 38) := by decide +kernel
/-- V1: the year, three bytes. -/
theorem test_takeu_year : answer 0x500E (ready v1 0 38) = some ([.ok 2017], 52) := by decide +kernel
/-- V1: the longitude, five bytes, negative. -/
theorem test_takes_longitude : answer 0x601C (ready v1 0 79) = some ([.ok 0xFB9ECD2C], 107) := by
  decide +kernel
/-- V1: the latitude, positive. -/
theorem test_takes_latitude : answer 0x601B (ready v1 0 107) = some ([.ok 22676583], 134) := by decide +kernel
/-- V1: remaining bits before the radio status. -/
theorem test_rem_v1 : answer 0x4000 (ready v1 0 149) = some ([.ok 19], 149) := by decide +kernel
/-- V1, byte-level check: the longitude from five bytes. -/
theorem test_extract_bytes : extractBytes (ready v1 0 0).bits 168 9 7 28 = 194956588 := by decide
/-- R68's example. -/
theorem test_rdb_last : answer 0x3014 (ready v1 0 38) = some ([.ok 0xCA], 38) := by decide +kernel
theorem test_rdb_past : latch 0x3015 (ready v1 0 0) = some (.fault, .invalidOperand, 0x3015) := by decide

/-- A3: the dropped fill bits are zeros in the image. -/
theorem test_rdb_padding : answer 0x3000 (ready [63] 5 0) = some ([.ok 0x80], 0) := by decide

/-- A1: PUSHC '4' appends 000100. -/
theorem test_pushc : (issue 0x1034 State.reset).map (fun t => (t.bits, t.nch, t.responses)) =
    some ([false, false, false, true, false, false], 1, [.ok 0]) := by decide
/-- A8: a bad character. -/
theorem test_pushc_bad : latch 0x1058 (filling [0]) = some (.fault, .invalidArmorCharacter, 0x58) := by
  decide
/-- A13: PUSHC after SEAL. -/
theorem test_pushc_sealed : latch 0x1030 (ready [0] 0 0) = some (.fault, .sequenceError, 0x1030) := by
  decide

/-- A2: SEAL 4 after "40". -/
theorem test_seal : (issue 0x2004 (filling [4, 0])).map
      (fun t => (t.phase, t.len, t.image, t.res, t.responses)) =
    some (.ready, 8, [0x10], 8, [.ok 8]) := by decide
/-- A6 and A9: a fill count larger than the data, and above 5. -/
theorem test_seal_empty : latch 0x2001 State.reset = some (.fault, .invalidOperand, 0x2001) ∧
    latch 0x2006 (filling [0]) = some (.fault, .invalidOperand, 0x2006) := by decide

/-- T1: TAKES 1 of a 1. -/
theorem test_takes_1 : answer 0x6001 (ready [63] 0 0) = some ([.ok 0xFFFFFFFF], 1) := by decide
/-- T7: TAKES 0. -/
theorem test_takes_0 : latch 0x6000 (ready [63] 0 0) = some (.fault, .invalidOperand, 0x6000) := by decide
/-- T3: 32 bits over five bytes. -/
theorem test_takeu_32 : answer 0x5020 (ready [0, 1, 2, 3, 4, 5, 6] 0 3) = some ([.ok 8657026], 35) := by
  decide
/-- T4: width 0 at the end of the buffer. -/
theorem test_takeu_0 : answer 0x5000 (ready [4, 0] 0 12) = some ([.ok 0], 12) := by decide
/-- T5: exhaustion consumes nothing. -/
theorem test_takeu_exhausted : latch 0x5008 (ready [4, 0] 0 5) = some (.fault, .insufficientBits, 8) ∧
    answer 0x5008 (ready [4, 0] 0 5) = some ([.err .insufficientBits], 5) := by decide
/-- F2: operand before data. -/
theorem test_priority_operand : latch 0x5028 (ready [63] 3 0) = some (.fault, .invalidOperand, 0x5028) := by
  decide
/-- F1: phase before operand. -/
theorem test_priority_phase : latch 0x5021 State.reset = some (.fault, .sequenceError, 0x5021) := by decide

/-- X3: a trailing space is kept. -/
theorem test_taket_space : (issue 0x7018 (ready [6, 2, 15, 32] 0 0)).map (fun t => (t.responses, t.pos)) =
    some ([.okText 4 [0x46, 0x42, 0x4F, 0x20]], 24) := by decide
/-- X13: an inner `'@'` is kept, the last one trimmed; `TXT` is zero from `TLEN` on. -/
theorem test_taket_trim : (issue 0x7018 (ready [1, 0, 2, 0] 0 0)).map
      (fun t => (t.text, t.tlen, t.txt.toList.drop 3)) =
    some ([0x41, 0x40, 0x42], 3, List.replicate 39 0) := by decide
/-- X5: a width that is no multiple of 6. -/
theorem test_taket_ragged : latch 0x7014 (ready [0, 0, 0, 0] 0 0) =
    some (.fault, .invalidOperand, 0x7014) := by decide
/-- X16 and X17: SIXA in FILL. -/
theorem test_sixa : answer 0x8013 State.reset = some ([.ok 83], 0) := by decide

/-- F5: an illegal word in FILL. -/
theorem test_illegal : latch 0x9000 State.reset = some (.fault, .illegalCommand, 0x9000) := by decide
/-- F6: in FAULT a legal and an illegal word change nothing and answer the first fault. -/
theorem test_sticky :
    let s := { ready [4] 0 0 with phase := .fault, err := .insufficientBits, einfo := 7 }
    issue 0x5006 s = some s.respondErr ∧ issue 0x9000 s = some s.respondErr := by decide
/-- A17: CLR gives the reset state. -/
theorem test_clr : issue 0x0000 { ready v1 0 38 with res := 0x0037FC99 } =
    some { State.reset with responses := [.ok 0] } := by decide
/-- F8: the reset event in FAULT. -/
theorem test_reset_event :
    step { ready [4] 0 0 with phase := .fault, err := .insufficientBits, pending := [.reset] } =
      .next State.reset := by rfl

/-! ## The host's first step, and the assembler (R52, R53) -/

theorem test_fetch_word : (match step (State.reset.withFetchWord 16 0x8013) with
    | .next t => some t.res
    | _ => none) = some 83 := by decide

/-- The comment sign and the quote inside quotes are characters. -/
theorem test_assemble_line : Assembler.line " PUSHC ';'  ; a comment".toList = some [.pushc 59] ∧
    Assembler.line "TAKEU 0x1C".toList = some [.takeu 28] ∧
    Assembler.line "SEAL 8".toList = none := by decide
theorem test_assemble_pseudo :
    Assembler.words ["UNARMOR \"40\", 0".toList, "SKIP 7 ; spare".toList, "TAKEB".toList] =
      some [0x0000, 0x1034, 0x1030, 0x2000, 0x5007, 0x5001] := by decide

/-! ## Witnesses: for each obligation with hypotheses, a state and operands that meet all of them -/

theorem flatMap_bits_length (l : List Nat) : (l.flatMap (bitsOf 6)).length = 6 * l.length := by
  induction l with
  | nil => rfl
  | cons a l ih => simp [ih]; omega

/-- The sealed test states meet the invariants of R20, whatever the fill count and the cursor. -/
theorem ready_inv (l : List Nat) (f p : Nat) (hl : l.length ≤ 28) (hf : f ≤ 5) (hfl : f ≤ 6 * l.length)
    (hp : p ≤ 6 * l.length - f) : (ready l f p).Inv := by
  have hcap := Config.capBits_bounds
  have hlen : ((l.flatMap (bitsOf 6)).take (6 * l.length - f)).length = 6 * l.length - f := by
    rw [List.length_take, flatMap_bits_length]; omega
  have hn : (BitVec.ofNat 16 l.length).toNat = l.length := by rw [BitVec.toNat_ofNat]; omega
  have hL : (BitVec.ofNat 16 (6 * l.length - f)).toNat = 6 * l.length - f := by
    rw [BitVec.toNat_ofNat]; omega
  have hP : (BitVec.ofNat 16 p).toNat = p := by rw [BitVec.toNat_ofNat]; omega
  refine ⟨?_, ?_, by simp [ready], fun _ => ⟨?_, f, hf, ?_, ?_⟩, by simp [ready, State.reset],
    by simp [ready, State.reset], ?_, ?_⟩
  · rw [Memory.wf_iff]; show _ ≤ _; simp only [ready, hlen]; omega
  · simp only [ready, hn]; omega
  · simp only [ready, hlen, hL]
  · simp only [ready, hn]; omega
  · simp only [ready, hn, hL]
  · intro j _; exact Vector.getElem_replicate ..
  · simp only [ready, hL, hP]; omega

/-- The filling test states meet them too. -/
theorem filling_inv (l : List Nat) (hl : l.length ≤ 28) : (filling l).Inv := by
  have hcap := Config.capBits_bounds
  have hn : (BitVec.ofNat 16 l.length).toNat = l.length := by
    rw [BitVec.toNat_ofNat]; omega
  refine ⟨?_, ?_, fun _ => ⟨?_, rfl, rfl⟩, by simp [filling, State.reset], by simp [filling, State.reset],
    by simp [filling, State.reset], ?_, by simp [filling, State.reset]⟩
  · rw [Memory.wf_iff]; show _ ≤ _; simp only [filling, flatMap_bits_length]; omega
  · simp only [filling, hn]; omega
  · simp only [filling, hn, flatMap_bits_length]
  · intro j _; exact Vector.getElem_replicate ..

/-- A state with one word to come. -/
def withWord (w : CommandWord) (s : State) : State := { s with pending := [.command w] }

/-- A block in FAULT. -/
def faulty : State := { ready [4] 0 0 with phase := .fault, err := .insufficientBits, einfo := 7 }

/-- 28 characters: LEN = 168, the widest takes fit. -/
def wide : State := ready (List.replicate 28 63) 0 0

theorem wide_inv : wide.Inv := ready_inv _ _ _ (by decide) (by decide) (by decide) (by decide)

/-- What a witness of completion needs: a result whose phase is `p`. -/
theorem completes {o : Host.Outcome State Fault Refusal} {p : Phase}
    (h : (match o with | .next t => some t.phase | _ => none) = some p) :
    ∃ t, o = .next t ∧ t.phase = p := by
  cases o <;> simp_all

/-- EncodeOfDecode, StepRunsTheDecodedCommand, ResetEventGivesTheResetState, StepIdlesWithoutInput. -/
theorem witness_step :
    (∃ (s : State) (w : CommandWord) (rest : List Input) (i : Instr), s.pending = .command w :: rest ∧ decode w = .ok i) ∧
    (∃ s : State, ∃ rest, s.pending = .reset :: rest) ∧ ∃ s : State, s.pending = [] :=
  ⟨⟨withWord 0x5006 wide, 0x5006, [], .takeu 6, rfl, by decide⟩,
    ⟨{ wide with pending := [.reset] }, [], rfl⟩, State.reset, rfl⟩

/-- UnarmorLineExpands, with the largest legal fill operand's digit. -/
theorem witness_unarmor_line : (∀ c ∈ ['4', '0', 'X', ' ', ';'], c.toNat < 256 ∧ c ≠ '"' ∧ c ≠ '\\') ∧
    Assembler.line ("UNARMOR ".toList ++ '"' :: "40".toList ++ ['"', ',', ' ', Char.ofNat (48 + 7)]) =
      some [.clr, .pushc 52, .pushc 48, .sealf 7] := by
  exact ⟨by simp, by decide +kernel⟩

/-- AlphabetsAgreeNowhere, at both ends of both ranges. -/
theorem witness_alphabets : sixbit 48 = some 0 ∧ sixbit 87 = some 39 ∧ sixbit 96 = some 40 ∧
    sixbit 119 = some 63 := by decide

/-- FaultEntryIsPrecise and IllegalWordsRaiseIllegalCommand. -/
theorem witness_fault_entry : ∃ s t w e, s.phase ≠ .fault ∧ s.pending = [.command w] ∧
    decode w = .error e ∧ step s = .next t ∧ t.phase = .fault :=
  ⟨withWord 0x9000 State.reset, _, 0x9000, .reservedOpcode 9, by decide, rfl, by decide, rfl, by decide⟩

/-- FaultIgnoresAllButClr, FaultHidesTheKeptValues (two states that differ in what is kept). -/
theorem witness_in_fault : faulty.phase = .fault ∧ (withWord 0x5006 faulty).pending = [.command 0x5006] ∧
    { faulty with res := 9, einfo := 1 } ≠ faulty := by decide

/-- SequenceErrorOutOfPhase: in and out of phase, in both phases. -/
theorem witness_phases : (filling [0]).phase = .fill ∧ outOfPhase .fill .rem ∧ ¬outOfPhase .fill (.pushc 48) ∧
    wide.phase = .ready ∧ outOfPhase .ready (.sealf 0) ∧ ¬outOfPhase .ready .rem := by
  refine ⟨rfl, rfl, ?_, rfl, rfl, ?_⟩ <;> simp [outOfPhase]

/-- InvalidOperandAndCapacity: the boundary of each clause. -/
theorem witness_operands : sealOperandOk 5 1 ∧ ¬sealOperandOk 6 1 ∧ ¬sealOperandOk 1 0 ∧
    rdbOperandOk 20 168 ∧ ¬rdbOperandOk 21 168 ∧ takeuOperandOk 32 ∧ ¬takeuOperandOk 33 ∧
    takesOperandOk 1 ∧ ¬takesOperandOk 0 ∧ ¬takesOperandOk 33 ∧ taketOperandOk 252 ∧ ¬taketOperandOk 253 ∧
    ¬taketOperandOk 20 := by decide

/-- A block in FILL that is full: InvalidOperandAndCapacity, PushcAppendsSixBits, ChecksAreMadeInOrder. -/
theorem witness_full : ∃ s : State, s.phase = .fill ∧ armorLegal 48 ∧
    6 * (s.nch.toNat + 1) > Config.capBits :=
  ⟨{ State.reset with nch := 5461 }, rfl, .inl (by decide), by
    have := Config.capBits_bounds
    show 6 * ((5461#16).toNat + 1) > _
    simp; omega⟩

/-- InsufficientBitsExactly, TakeuReadsBigEndian, TakesReadsTwosComplement, TaketDecodesAndTrims: every
bit taken, one bit too many, and width 0. -/
theorem witness_takes : wide.Inv ∧ wide.phase = .ready ∧ operandLegal wide (.taket 168) = true ∧
    (168#12).toNat ≤ wide.len.toNat - wide.pos.toNat ∧ operandLegal wide (.takeu 32) = true ∧
    (ready [63] 0 0).Inv ∧ (7#12).toNat > (ready [63] 0 0).len.toNat - (ready [63] 0 0).pos.toNat :=
  ⟨wide_inv, by decide, by decide, by decide, by decide,
    ready_inv _ _ _ (by decide) (by decide) (by decide) (by decide), by decide⟩

/-- ChecksAreMadeInOrder, EinfoRecordsTheCause: a word of each later check. -/
theorem witness_order : (withWord 0x5021 wide).pending = [.command 0x5021] ∧
    decode 0x5021 = .ok (.takeu 33) ∧ ¬outOfPhase .ready (.takeu 33) ∧
    operandLegal wide (.takeu 33) = false := by
  refine ⟨rfl, by decide, by simp [outOfPhase], by decide⟩

/-- WellUsedMeetsOnlyDocumentFaults: a PUSHC with room, and a take. -/
theorem witness_well_used : (filling [0]).Inv ∧ wellUsed (filling [0]) (.pushc 48) = true ∧
    wide.Inv ∧ wellUsed wide (.takeu 32) = true := by
  refine ⟨filling_inv _ (by decide), ?_, wide_inv, by decide⟩
  have := Config.capBits_bounds
  simp [wellUsed, legalIn, operandLegal, capacityLeft, filling, State.reset]
  omega

/-- PushcAppendsSixBits: an empty buffer has room for a legal character. -/
theorem witness_pushc : State.reset.phase = .fill ∧ armorLegal 119 ∧ ¬armorLegal 120 ∧
    6 * (State.reset.nch.toNat + 1) ≤ Config.capBits := by
  have := Config.capBits_bounds
  refine ⟨rfl, .inr (by decide), by simp [armorLegal], ?_⟩
  simp [State.reset]; omega

/-- SealDropsFillBitsAndOpensTheCursor, at the largest fill count and on an empty text. -/
theorem witness_seal : (filling [0]).Inv ∧ (filling [0]).phase = .fill ∧
    (5#12).toNat ≤ 6 * (filling [0]).nch.toNat ∧ State.reset.Inv ∧
    (1#12).toNat > 6 * State.reset.nch.toNat :=
  ⟨filling_inv _ (by decide), rfl, by decide, filling_inv [] (by decide), by decide⟩

/-- RdbReturnsTheImageByte, RemCountsUnconsumedBits: the last byte, and the end of the buffer. -/
theorem witness_reads : wide.Inv ∧ wide.phase = .ready ∧ (20#12).toNat < (wide.len.toNat + 7) / 8 ∧
    (ready [63] 0 6).pos.toNat ≤ (ready [63] 0 6).len.toNat :=
  ⟨wide_inv, by decide, by decide, by decide⟩

/-- TakeAdvancesTheCursor, FrameOfTakes, BufferIsImmutableOnceSealed, CursorNeverGoesBack: a take that
completes, from a state with the invariants. -/
theorem witness_take_completes : IsTake (.taket 168) 168 ∧ wide.Inv ∧ ∃ t, exec (.taket 168) wide = .next t ∧
    t.phase = .ready ∧ ¬clearsNext (withWord 0x70A8 wide) := by
  obtain ⟨t, h, hp⟩ := completes (o := exec (.taket 168) wide) (p := .ready) (by decide +kernel)
  exact ⟨.inr (.inr rfl), wide_inv, t, h, hp, by simp [clearsNext, withWord]⟩

/-- FrameOfPlainReads, PlainReadsRepeat, FrameOfPushc, FrameOfSeal: each completes somewhere. -/
theorem witness_frames : (∃ t, exec (.rdb 20) wide = .next t ∧ t.phase = .ready) ∧
    (∃ t, exec .rem wide = .next t ∧ t.phase = .ready) ∧
    (∃ t, exec (.sixa 63) wide = .next t ∧ t.phase = .ready) ∧
    (∃ t, exec (.pushc 48) State.reset = .next t ∧ t.phase = .fill) ∧
    ∃ t, exec (.sealf 5) (filling [0]) = .next t ∧ t.phase = .ready :=
  ⟨completes (by decide +kernel), completes (by decide +kernel), completes (by decide +kernel),
    ⟨_, rfl, rfl⟩, completes (by decide +kernel)⟩

/-- PhaseTransitions, OneResponsePerCommand: a state about to be cleared; one that is not, nor about to run TAKET,
with a command or with the illegal word 0x7100. -/
theorem witness_clears : clearsNext (withWord 0x0000 wide) ∧ ¬clearsNext (withWord 0x4000 wide) ∧
    (∀ b, decode 0x4000 ≠ .ok (.taket b)) ∧ ¬clearsNext (withWord 0x7100 wide) ∧
    ∀ b, decode 0x7100 ≠ .ok (.taket b) := by
  refine ⟨by simp [clearsNext, withWord], by simp [clearsNext, withWord], fun b h => ?_,
    by simp [clearsNext, withWord], fun b h => ?_⟩
  · rw [show decode 0x4000 = .ok .rem by decide] at h
    cases h
  · rw [show decode 0x7100 = .error (.mustBeZero 7) by decide] at h
    cases h

/-- ClrRestoresTheResetState: a word with opcode 0 and an operand, in FAULT. -/
theorem witness_not_clr : faulty.phase = .fault ∧ (withWord 0x0FFF faulty).phase = .fault ∧
    (withWord 0x0FFF faulty).pending = [.command (0#4 ++ 0xFFF#12)] ∧ (0xFFF#12) ≠ 0 := by
  refine ⟨rfl, rfl, ?_, by decide⟩
  exact congrArg (fun w => [Input.command w]) (by decide)

/-- OneResponsePerCommand, NoThirdOutcome, StepKeepsTheInvariants, StepKeepsTheTextInvariant. -/
theorem witness_invariants : (withWord 0x70A8 wide).Inv ∧ (withWord 0x70A8 wide).TextInv ∧
    ∃ t, step (withWord 0x70A8 wide) = .next t ∧ t.phase = .ready := by
  refine ⟨⟨wide_inv.1, wide_inv.2, wide_inv.3, wide_inv.4, wide_inv.5, wide_inv.6, wide_inv.7, wide_inv.8⟩,
    ⟨?_, ?_⟩, completes (by decide +kernel)⟩
  · intro c hc
    simp [State.text, withWord, wide, ready, State.reset] at hc
  · simp [State.text, withWord, wide, ready, State.reset]

/-- SixaMapsOneCharacter, ClampedSpareReadCompletes, LanesAreSlicesOfTheInteger, AdjacentReadsJoin,
ByteExtractionEqualsBitExtraction: five characters, 32 bits over five bytes. -/
theorem witness_fields : (filling [0]).phase ≠ .fault ∧ wide.Inv ∧ wide.phase = .ready ∧
    3 + 6 * 5 ≤ wide.bits.length ∧ 7 + 32 ≤ wide.bits.length ∧ ceil8 (7 % 8 + 32) = 5 :=
  ⟨by decide, wide_inv, by decide +kernel, by decide +kernel, by decide +kernel, by decide⟩

/-- UnarmorSequenceIsUnarmor: texts that fit, with each outcome of `Unarmor`. -/
theorem witness_unarmor : 6 * [0x34#8, 0x30#8].length ≤ Config.capBits ∧
    unarmor [0x34#8, 0x30#8] 4 =
      .buffer ⟨[false, false, false, true, false, false, false, false], 8, [0x10]⟩ ∧
    unarmor [0x34#8, 0x58#8] 7 = .invalidArmorCharacter 0x58#8 ∧ legalPrefix [0x34#8, 0x58#8] = 1 ∧
    unarmor [0x34#8, 0x30#8] 7 = .noMeaning ∧ unarmor [] 1 = .noMeaning ∧
    unarmor [] 0 = .buffer ⟨[], 0, []⟩ := by
  have := Config.capBits_bounds
  refine ⟨?_, by decide +kernel, by decide +kernel, by decide +kernel, by decide +kernel, by decide +kernel,
    by decide +kernel⟩
  simp only [List.length_cons, List.length_nil]; omega

/-- UnarmorBeyondTheCapacity: 5462 legal characters exceed every capacity. -/
theorem witness_beyond_capacity : 6 * (List.replicate 5462 0x30#8).length > Config.capBits ∧
    Config.capBits / 6 < legalPrefix (List.replicate 5462 0x30#8) := by
  have := Config.capBits_bounds
  have h : (List.replicate 5462 0x30#8).takeWhile (fun c => (sixbit c.toNat).isSome) =
      List.replicate 5462 0x30#8 :=
    List.takeWhile_eq_self_iff.2 fun c hc => by
      rw [List.eq_of_mem_replicate hc]; decide
  rw [legalPrefix, h, List.length_replicate]
  omega

/-- TextRoundTrip: a text with an inner and a trailing `'@'` (X13), and its armor. -/
theorem witness_round_trip : (∀ c ∈ [0x41#8, 0x40#8, 0x42#8, 0x40#8], 32 ≤ c.toNat ∧ c.toNat ≤ 95) ∧
    armorOf [0x41#8, 0x40#8, 0x42#8, 0x40#8] = [0x31#8, 0x30#8, 0x32#8, 0x30#8] := by decide

/-- ClrForgetsEarlierMessages: two states that differ, CLR to come, and the run answers. -/
theorem witness_clr_forgets : withWord 0x0000 wide ≠ withWord 0x0000 faulty ∧
    ∃ t, Host.Core.run core 1 (withWord 0x0000 wide) = .next t :=
  ⟨fun h => absurd (congrArg State.phase h) (by decide), _, rfl⟩

/-- NoThirdOutcome: each of its three cases, from a state that meets the invariants where it asks for them. -/
theorem witness_three_outcomes : (withWord 0x5006 wide).phase ≠ .fault ∧ decode 0x5006 = .ok (.takeu 6) ∧
    (∃ t, step (withWord 0x5006 wide) = .next t ∧ t.phase = .ready) ∧
    (∃ t, step (withWord 0x5021 wide) = .next t ∧ t.phase = .fault) ∧
    ∃ t, step (withWord 0x5006 faulty) = .next t ∧ t.phase = .fault :=
  ⟨by decide, by decide, completes (by decide +kernel), completes (by decide +kernel),
    completes (by decide +kernel)⟩

/-- InstancesStepIndependently: instances that meet the invariants, a schedule that names both, and a step. -/
theorem witness_instances : (∀ s ∈ [wide, filling [0]], s.Inv) ∧ (∀ k ∈ [0, 1, 0], k < [wide, filling [0]].length) ∧
    (∃ sys', System.runSchedule [withWord 0x4000 wide, faulty] [0, 1, 0] = some sys' ∧
      sys'[1]? = some faulty) ∧
    ∃ sys', System.stepAt [withWord 0x4000 wide, faulty] 0 = some sys' ∧ sys'[1]? = some faulty := by
  refine ⟨fun s hs => ?_, by simp, ⟨_, rfl, rfl⟩, _, rfl, rfl⟩
  simp only [List.mem_cons, List.not_mem_nil, or_false] at hs
  rcases hs with rfl | rfl
  · exact wide_inv
  · exact filling_inv _ (by decide)

end Sys2Proof.Tests
end

section
namespace Sys2Proof
open Machine

/-- Settles O13: `step_nil`, for every state whose queue of inputs is empty. -/
theorem stepIdlesWithoutInput : Obligations.StepIdlesWithoutInput := fun _ => step_nil

end Sys2Proof
end

section
/-!
What one step can do, in both directions: the forward equations for the reset event, CLR and the sticky
fault, and the inversion `step_effect`, from which the claims about every step are derived.
-/

namespace Sys2Proof

/-- A decoded command has the two fields of its word (30_encoding.md R47). -/
theorem decode_fields {w : CommandWord} {i : Instr} (h : decode w = .ok i) :
    i.opcode = opField w ∧ i.operand = argField w := by
  have noOperand (hz : mbzClear 0 (argField w) = true) : 0 = argField w :=
    BitVec.eq_of_toNat_eq (by simpa [eq_comm] using (mbzClear_iff 0 _).1 hz)
  unfold decode at h
  simp only at h
  split at h
  case h_10 => cases h
  case h_1 hop | h_5 hop =>
    split at h
    · next hz =>
      cases h
      exact ⟨BitVec.eq_of_toNat_eq hop.symm, noOperand hz⟩
    · cases h
  all_goals
    next hop =>
      split at h
      · cases h
        exact ⟨BitVec.eq_of_toNat_eq hop.symm, rfl⟩
      · cases h

/-- A word that decodes is the word of what it decodes to. -/
theorem encode_of_decode {w : CommandWord} {i : Instr} (h : decode w = .ok i) : encode i = w := by
  obtain ⟨hop, harg⟩ := decode_fields h
  rw [encode, hop, harg, append_fields]

/-- CLR has the word 0 and no other (30_encoding.md R46). -/
theorem decode_eq_clr_iff (w : CommandWord) : decode w = .ok .clr ↔ w = 0 :=
  ⟨fun h => (encode_of_decode h).symm, fun h => h ▸ by decide⟩

end Sys2Proof

namespace Sys2Proof.Machine

/-- The step on CLR. -/
theorem step_clr {s : State} {rest : List Input} (h : s.pending = .command 0 :: rest) :
    step s = .next { s with pending := rest }.cleared.respondOk := by
  rw [step_command h, (decode_eq_clr_iff 0).2 rfl]
  rfl

/-- In FAULT a command other than CLR is only answered (60_exceptions.md R102). -/
theorem exec_of_fault {i : Instr} {s : State} (hi : i ≠ .clr) (hp : s.phase = .fault) :
    exec i s = .next s.respondErr := by
  cases i with
  | clr => exact absurd rfl hi
  | _ => exact checked_of_fault _ hp

/-- In FAULT a word other than CLR's, illegal or not, is only answered (60_exceptions.md R102). -/
theorem step_of_fault {s : State} {w : CommandWord} {rest : List Input} (hp : s.phase = .fault)
    (hq : s.pending = .command w :: rest) (hw : w ≠ 0) :
    step s = .next { s with pending := rest }.respondErr := by
  rw [step_command hq]
  cases hd : decode w with
  | ok i => exact exec_of_fault (fun hi => hw ((decode_eq_clr_iff w).1 (hi ▸ hd))) hp
  | error e => exact if_pos hp

/-- Why a word raises a fault in FILL or READY: it is illegal, or its command raises the fault. -/
def WordRaises (w : CommandWord) (s : State) (f : FaultCode) (info : Word) : Prop :=
  (f = .illegalCommand ∧ info = w.setWidth 32 ∧ ∃ e, decode w = .error e) ∨
  ∃ i, decode w = .ok i ∧ Raises i s f info

/-- The next states a step can lead to, by what the step does. -/
inductive StepEffect (s : State) : State → Prop where
  /-- The client sends nothing. -/
  | idle (hq : s.pending = []) : StepEffect s s
  /-- The reset event. -/
  | reset {rest : List Input} (hq : s.pending = .reset :: rest) :
      StepEffect s { s with pending := rest }.cleared
  /-- CLR. -/
  | clr {rest : List Input} (hq : s.pending = .command 0 :: rest) :
      StepEffect s { s with pending := rest }.cleared.respondOk
  /-- Any other word in FAULT. -/
  | sticky {w : CommandWord} {rest : List Input} (hq : s.pending = .command w :: rest) (hw : w ≠ 0)
      (hp : s.phase = .fault) : StepEffect s { s with pending := rest }.respondErr
  /-- A word that takes a fault. -/
  | raises {w : CommandWord} {rest : List Input} {f : FaultCode} {info : Word}
      (hq : s.pending = .command w :: rest) (hw : w ≠ 0) (hp : s.phase ≠ .fault)
      (hf : WordRaises w s f info) : StepEffect s ({ s with pending := rest }.raise f info)
  /-- The word of a command, other than CLR, that completes. -/
  | completes {w : CommandWord} {rest : List Input} {i : Instr} {t : State}
      (hq : s.pending = .command w :: rest) (hd : decode w = .ok i) (hi : i ≠ .clr)
      (hp : { s with pending := rest }.phase ≠ .fault)
      (hl : legalIn i { s with pending := rest }.phase = true)
      (ho : operandLegal { s with pending := rest } i = true)
      (hc : Completes { s with pending := rest } t i) : StepEffect s t

/-- A step that answers a next state has one of these effects. -/
theorem step_effect {s t : State} (h : step s = .next t) : StepEffect s t := by
  match hq : s.pending with
  | [] =>
    cases (step_nil hq).symm.trans h
    exact .idle hq
  | .reset :: rest =>
    cases (step_reset hq).symm.trans h
    exact .reset hq
  | .command w :: rest =>
    rw [step_command hq] at h
    cases hd : decode w with
    | error e =>
      have hw : w ≠ 0 := by rintro rfl; cases ((decode_eq_clr_iff 0).2 rfl).symm.trans hd
      simp only [hd] at h
      rcases illegalCommand_next h with ⟨hp, rfl⟩ | ⟨hp, rfl⟩
      · exact .sticky hq hw hp
      · exact .raises hq hw hp (.inl ⟨rfl, rfl, e, hd⟩)
    | ok i =>
      have hw (hi : i ≠ .clr) : w ≠ 0 := fun hw =>
        hi (Except.ok.inj (hd.symm.trans ((decode_eq_clr_iff w).2 hw)))
      simp only [hd] at h
      rcases exec_next h with ⟨rfl, rfl⟩ | ⟨hi, hp, rfl⟩ | ⟨hi, hp, f, info, hr, rfl⟩ |
        ⟨hi, hp, hl, ho, hc⟩
      · obtain rfl := (decode_eq_clr_iff w).1 hd
        exact .clr hq
      · exact .sticky hq (hw hi) hp
      · exact .raises hq (hw hi) hp (.inr ⟨i, hd, hr⟩)
      · exact .completes hq hd hi hp hl ho hc

/-- A word raises no fault with the code None (60_exceptions.md R91). -/
theorem WordRaises.ne_none {w : CommandWord} {s : State} {f : FaultCode} {info : Word}
    (h : WordRaises w s f info) : f ≠ .none := by
  rcases h with ⟨rfl, -⟩ | ⟨i, -, h⟩
  · simp
  · exact h.ne_none

end Sys2Proof.Machine
end

section
/-!
The invariants of 10_state.md R20: they hold at reset, every shared operation of the machine and so every step
keeps them, and from a state that meets them no step and no run stops.
-/

namespace Sys2Proof.Machine

/-- Byte `j` of a zero text file. -/
theorem zeroText_getElem (j : Fin 42) : (Vector.replicate 42 (0 : Byte))[j] = 0 :=
  Vector.getElem_replicate ..

theorem State.reset_inv : State.reset.Inv where
  capacity := Memory.wf_nil
  characters := Nat.zero_le _
  filling _ := ⟨rfl, rfl, rfl⟩
  sealed h := by cases h
  latch := by simp [State.reset]
  textLength := Nat.zero_le _
  textPadding j _ := zeroText_getElem j
  cursor := le_rfl

/-- CLR and the reset event lead to a state that meets the invariants, from any state. -/
theorem State.cleared_inv (s : State) : s.cleared.Inv :=
  State.reset_inv.congr rfl rfl rfl rfl rfl rfl rfl rfl

namespace State.Inv

variable {s : State}

theorem withPending (h : s.Inv) (rest : List Input) : { s with pending := rest }.Inv :=
  h.congr rfl rfl rfl rfl rfl rfl rfl rfl

theorem respondOk (h : s.Inv) : s.respondOk.Inv := h.congr rfl rfl rfl rfl rfl rfl rfl rfl

theorem respondText (h : s.Inv) : s.respondText.Inv := h.congr rfl rfl rfl rfl rfl rfl rfl rfl

theorem respondErr (h : s.Inv) : s.respondErr.Inv := h.congr rfl rfl rfl rfl rfl rfl rfl rfl

theorem setRes (h : s.Inv) (v : Word) : (s.setRes v).Inv := h.congr rfl rfl rfl rfl rfl rfl rfl rfl

/-- Fault entry latches a code with the phase, and FAULT asks nothing of the buffer. -/
theorem raise (h : s.Inv) {f : FaultCode} (hf : f ≠ .none) (info : Word) : (s.raise f info).Inv where
  capacity := h.capacity
  characters := h.characters
  filling hp := by cases hp
  sealed hp := by cases hp
  latch := by simp [hf]
  textLength := h.textLength
  textPadding := h.textPadding
  cursor := h.cursor

/-- The bits of the buffer that are not consumed yet exist. -/
theorem remaining_exist (h : s.Inv) (hp : s.phase = .ready) {w : Nat} (hw : w ≤ s.remaining) :
    s.pos.toNat + w ≤ s.bits.length := by
  have hlen := (h.sealed hp).1
  have hcur := h.cursor
  simp only [State.remaining] at hw
  omega

end State.Inv

/-- A take within the remaining bits moves the cursor without wrapping (41_cursor.md R78). -/
theorem State.advance_pos_toNat {s : State} {w : Nat} (hcur : s.pos.toNat ≤ s.len.toNat)
    (hw : w ≤ s.remaining) : (s.advance w).pos.toNat = s.pos.toNat + w := by
  have hlen := s.len.isLt
  simp only [State.remaining] at hw
  rw [State.advance_pos, BitVec.toNat_add, BitVec.toNat_ofNat]
  omega

namespace State.Inv

variable {s : State}

/-- An advance within the remaining bits keeps the cursor within the buffer. -/
theorem advance (h : s.Inv) (hp : s.phase = .ready) {w : Nat} (hw : w ≤ s.remaining) :
    (s.advance w).Inv where
  capacity := h.capacity
  characters := h.characters
  filling hf := by cases hp.symm.trans hf
  sealed := h.sealed
  latch := h.latch
  textLength := h.textLength
  textPadding := h.textPadding
  cursor := by
    have hcur := h.cursor
    rw [State.advance_pos_toNat hcur hw]
    simp only [State.remaining, State.advance_len] at *
    omega

/-- A text of at most 42 characters fills the text file as R20 item 4 asks. -/
theorem setText (h : s.Inv) {x : List Byte} (hx : x.length ≤ 42) : (s.setText x).Inv where
  capacity := h.capacity
  characters := h.characters
  filling := h.filling
  sealed := h.sealed
  latch := h.latch
  textLength := by
    rw [State.setText_tlen, BitVec.toNat_ofNat]
    omega
  textPadding j hj := by
    have hlen : x.length ≤ j.val := by
      rw [State.setText_tlen, BitVec.toNat_ofNat] at hj
      omega
    have hget : (textFile x).toList[j.val]? = some 0 := by
      rw [textFile_toList x hx, List.getElem?_append_right hlen, List.getElem?_replicate]
      simp
      omega
    simpa using hget
  cursor := h.cursor

/-- PUSHC within the capacity appends six bits and counts one character, which cannot wrap. -/
theorem push (h : s.Inv) (hp : s.phase = .fill) (hcap : 6 * (s.nch.toNat + 1) ≤ Config.capBits)
    (v : Nat) : { s with bits := s.bits.append v, nch := s.nch + 1 }.Inv := by
  obtain ⟨hbits, hlen, hpos⟩ := h.filling hp
  have hbound := Config.capBits_bounds
  have hnch : (s.nch + 1).toNat = s.nch.toNat + 1 := by
    rw [BitVec.toNat_add]
    simp
    omega
  exact {
    capacity := Memory.append_wf _ _ (by omega)
    characters := by simpa only [hnch] using hcap
    filling := fun _ => ⟨by simp only [Memory.append_length, hnch]; omega, hlen, hpos⟩
    sealed := fun hr => by cases hp.symm.trans hr
    latch := h.latch
    textLength := h.textLength
    textPadding := h.textPadding
    cursor := h.cursor }

/-- SEAL of a legal fill count leaves the buffer as long as the new LEN, with the cursor at its start. -/
theorem sealBuffer (h : s.Inv) (hp : s.phase = .fill) {f : Nat} (hf : f ≤ 5) (hfn : f ≤ 6 * s.nch.toNat)
    (r : Word) :
    { s with
      bits := s.bits.truncate (6 * s.nch.toNat - f), len := BitVec.ofNat 16 (6 * s.nch.toNat - f)
      pos := 0, phase := .ready, res := r }.Inv := by
  have hbits := (h.filling hp).1
  have hchar := h.characters
  have hbound := Config.capBits_bounds
  have hlen : (BitVec.ofNat 16 (6 * s.nch.toNat - f)).toNat = 6 * s.nch.toNat - f := by
    rw [BitVec.toNat_ofNat]
    omega
  exact {
    capacity := Memory.truncate_wf _ _ h.capacity
    characters := hchar
    filling := fun hr => by cases hr
    sealed := fun _ => ⟨by simp only [Memory.truncate, List.length_take, hlen]; omega, f, hf, hfn, hlen⟩
    latch := by simpa [hp] using h.latch
    textLength := h.textLength
    textPadding := h.textPadding
    cursor := Nat.zero_le _ }

end State.Inv

/-- A legal TAKET decodes to at most 42 characters. -/
theorem decodeText_length_of_legal (m : Memory) (a : Nat) {w : Operand} (ho : taketOperandOk w = true) :
    (decodeText m a w.toNat).length ≤ 42 := by
  simp only [taketOperandOk, Config.charBits, Config.txtMax, Bool.and_eq_true, decide_eq_true_eq] at ho
  exact decodeText_length_le _ _ _ ho.2

/-- A take is legal in READY only. -/
theorem IsTake.phase_eq_ready {i : Instr} {w : Operand} {s : State} (h : IsTake i w)
    (hl : legalIn i s.phase = true) : s.phase = .ready := by
  rcases h with rfl | rfl | rfl <;> simpa [legalIn] using hl

/-- A command that completes keeps the invariants. -/
theorem Completes.inv {i : Instr} {s t : State} (h : Completes s t i) (hs : s.Inv)
    (hl : legalIn i s.phase = true) (ho : operandLegal s i = true) : t.Inv := by
  cases i with
  | clr => exact h.elim
  | pushc c =>
    obtain ⟨v, -, hcap, rfl⟩ := h
    exact (hs.push (by simpa [legalIn] using hl) hcap v).respondOk
  | sealf f =>
    simp only [operandLegal, sealOperandOk, Bool.and_eq_true, decide_eq_true_eq] at ho
    cases h
    exact (hs.sealBuffer (by simpa [legalIn] using hl) ho.1 ho.2 _).respondOk
  | rdb n =>
    obtain ⟨-, rfl⟩ := h
    exact (hs.setRes _).respondOk
  | takeu w | takes w =>
    obtain ⟨hw, -, rfl⟩ := h
    exact State.Inv.advance (hs.setRes _).respondOk (by simpa [legalIn] using hl) hw
  | taket w =>
    obtain ⟨hw, -, rfl⟩ := h
    have htext := hs.setText (decodeText_length_of_legal s.bits s.pos.toNat ho)
    exact (htext.setRes _).respondText.advance (by simpa [legalIn] using hl) hw
  | rem | sixa v =>
    cases h
    exact (hs.setRes _).respondOk

/-- Every step keeps the invariants. -/
theorem State.Inv.step {s t : State} (hs : s.Inv) (h : step s = .next t) : t.Inv := by
  cases step_effect h with
  | idle => exact hs
  | reset => exact State.cleared_inv _
  | clr => exact (State.cleared_inv _).respondOk
  | sticky => exact (hs.withPending _).respondErr
  | raises _ _ _ hf => exact (hs.withPending _).raise hf.ne_none _
  | completes _ _ _ _ hl ho hc => exact hc.inv (hs.withPending _) hl ho

/-- The checks of phase and sticky fault answer when the body does (60_exceptions.md R101). -/
theorem checked_answers {i : Instr} {s : State} {body : Result}
    (h : legalIn i s.phase = true → ∃ t, body = .next t) : ∃ t, checked i s body = .next t := by
  unfold checked
  split
  · exact ⟨_, rfl⟩
  · split
    · exact h ‹_›
    · exact ⟨_, rfl⟩

/-- The check of the operand answers when the body does (60_exceptions.md R98). -/
theorem withOperand_answers {i : Instr} {legal : Bool} {s : State} {body : Result}
    (h : ∃ t, body = .next t) : ∃ t, withOperand i legal s body = .next t := by
  cases legal
  · exact ⟨_, rfl⟩
  · exact h

/-- A take from a state that meets the invariants answers: the bits it reads exist. -/
theorem take_answers {i : Instr} {w : Operand} (legal : Bool) (finish : State → State) {s : State}
    (hs : s.Inv) (hi : IsTake i w) : ∃ t, take i w legal finish s = .next t := by
  refine checked_answers fun hl => withOperand_answers ?_
  split
  · exact ⟨_, rfl⟩
  · next hw =>
    have hb := hs.remaining_exist (hi.phase_eq_ready hl) (Nat.le_of_not_lt hw)
    exact ⟨_, if_pos (by simpa [Memory.holds] using hb)⟩

/-- Every command answers from a state that meets the invariants. -/
theorem exec_answers (i : Instr) {s : State} (hs : s.Inv) : ∃ t, exec i s = .next t := by
  cases i with
  | clr => exact ⟨_, rfl⟩
  | pushc c =>
    refine checked_answers fun _ => ?_
    split
    · exact ⟨_, rfl⟩
    · split <;> exact ⟨_, rfl⟩
  | sealf f => exact checked_answers fun _ => withOperand_answers ⟨_, rfl⟩
  | rdb n =>
    refine checked_answers fun hl => withOperand_answers ?_
    have hlen := (hs.sealed (by simpa [legalIn] using hl)).1
    simp [State.readByte, Memory.holds, hlen]
  | takeu w =>
    rw [exec, execTakeu]
    exact take_answers _ _ hs (.inl rfl)
  | takes w =>
    rw [exec, execTakes]
    exact take_answers _ _ hs (.inr (.inl rfl))
  | taket w =>
    rw [exec, execTaket]
    exact take_answers _ _ hs (.inr (.inr rfl))
  | rem | sixa v => exact checked_answers fun _ => ⟨_, rfl⟩

/-- From a state that meets the invariants no step stops. -/
theorem step_answers {s : State} (hs : s.Inv) : ∃ t, step s = .next t := by
  match hq : s.pending with
  | [] => exact ⟨_, step_nil hq⟩
  | .reset :: rest => exact ⟨_, step_reset hq⟩
  | .command w :: rest =>
    rw [step_command hq]
    cases decode w with
    | ok i => exact exec_answers i (hs.withPending rest)
    | error e =>
      by_cases hp : s.phase = .fault
      · exact ⟨_, if_pos hp⟩
      · exact ⟨_, if_neg hp⟩

/-- From a state that meets the invariants no run stops, and every state it ends in meets them. -/
theorem run_answers (n : Nat) {s : State} (hs : s.Inv) :
    ∃ t : State, Host.Core.run core n s = .next t ∧ t.Inv := by
  induction n generalizing s with
  | zero => exact ⟨s, rfl, hs⟩
  | succ n ih =>
    obtain ⟨u, hu⟩ := step_answers hs
    obtain ⟨t, ht, hinv⟩ := ih (hs.step hu)
    exact ⟨t, (run_succ n hu).trans ht, hinv⟩

end Sys2Proof.Machine

namespace Sys2Proof
open Machine

/-- Settles O43: the reset state meets R20's items, and its text is empty. -/
theorem invariantsHoldAtReset : Obligations.InvariantsHoldAtReset :=
  ⟨State.reset_inv, ⟨fun c hc => by simp [State.text, State.reset] at hc, by simp [State.text, State.reset]⟩⟩

/-- Settles O44, by the effects a step can have. -/
theorem stepKeepsTheInvariants : Obligations.StepKeepsTheInvariants := fun _ _ hs h => hs.step h

end Sys2Proof
end

section
/-!
What can be observed of a block in FAULT (10_state.md R25): ERR, until the input that clears it.
-/

namespace Sys2Proof.Machine

/-- Two blocks that differ only in what clearing erases become equal. -/
theorem State.cleared_congr {s1 s2 : State} (rest : List Input) (h : s1.responses = s2.responses) :
    { s1 with pending := rest }.cleared = { s2 with pending := rest }.cleared := by
  simp [State.cleared, h]

/-- One step of two blocks in FAULT with the same ERR, the same inputs to come and the same responses: both
answer, and then they are such blocks again, or equal in a state that meets the invariants. -/
theorem step_of_same_fault {s1 s2 : State} (hp1 : s1.phase = .fault) (hp2 : s2.phase = .fault)
    (herr : s1.err = s2.err) (hq : s1.pending = s2.pending) (hr : s1.responses = s2.responses) :
    ∃ t1 t2, step s1 = .next t1 ∧ step s2 = .next t2 ∧
      ((t1 = t2 ∧ t1.Inv) ∨ (t1.phase = .fault ∧ t2.phase = .fault ∧ t1.err = t2.err ∧
        t1.pending = t2.pending ∧ t1.responses = t2.responses)) := by
  match hq1 : s1.pending with
  | [] => exact ⟨s1, s2, step_nil hq1, step_nil (hq ▸ hq1), .inr ⟨hp1, hp2, herr, hq, hr⟩⟩
  | .reset :: rest =>
    exact ⟨_, _, step_reset hq1, step_reset (hq ▸ hq1),
      .inl ⟨State.cleared_congr rest hr, State.cleared_inv _⟩⟩
  | .command w :: rest =>
    by_cases hw : w = 0
    · subst hw
      exact ⟨_, _, step_clr hq1, step_clr (hq ▸ hq1),
        .inl ⟨congrArg State.respondOk (State.cleared_congr rest hr), (State.cleared_inv _).respondOk⟩⟩
    · exact ⟨_, _, step_of_fault hp1 hq1 hw, step_of_fault hp2 (hq ▸ hq1) hw,
        .inr ⟨hp1, hp2, herr, rfl, by simp [herr, hr]⟩⟩

end Sys2Proof.Machine

namespace Sys2Proof
open Machine

/-- Settles O53, by induction on the number of steps. -/
theorem faultHidesTheKeptValues : Obligations.FaultHidesTheKeptValues := by
  intro s1 s2 hp1 hp2 herr hq hr n
  induction n generalizing s1 s2 with
  | zero => exact ⟨s1, s2, rfl, rfl, hr⟩
  | succ n ih =>
    obtain ⟨t1, t2, h1, h2, h | ⟨hp1, hp2, herr, hq, hr⟩⟩ := step_of_same_fault hp1 hp2 herr hq hr
    · obtain ⟨rfl, hinv⟩ := h
      obtain ⟨u, hu, -⟩ := run_answers n hinv
      exact ⟨u, u, (run_succ n h1).trans hu, (run_succ n h2).trans hu, rfl⟩
    · obtain ⟨u1, u2, hu1, hu2, hu⟩ := ih t1 t2 hp1 hp2 herr hq hr
      exact ⟨u1, u2, (run_succ n h1).trans hu1, (run_succ n h2).trans hu2, hu⟩

end Sys2Proof
end

section
/-!
Steps and the status registers: the values CLR and reset give (10_state.md R23), the phase transitions (R13), what
EINFO records (R15), and the cursor after SEAL (R80).
-/

namespace Sys2Proof.Machine

/-- CLR and the reset event lead to FILL, with EINFO cleared. -/
theorem step_of_clearsNext {s t : State} (hc : clearsNext s) (h : step s = .next t) :
    t.phase = .fill ∧ t.einfo = 0 := by
  obtain ⟨rest, hq | hq⟩ := hc
  · cases (step_reset hq).symm.trans h
    exact ⟨rfl, rfl⟩
  · cases (step_clr hq).symm.trans h
    exact ⟨rfl, rfl⟩

/-- EINFO is the operand for the document's two faults and the word for the others (10_state.md R15). -/
theorem WordRaises.info_eq {w : CommandWord} {s : State} {f : FaultCode} {info : Word}
    (h : WordRaises w s f info) :
    info = if f = .invalidArmorCharacter ∨ f = .insufficientBits then (argField w).setWidth 32
      else w.setWidth 32 := by
  rcases h with ⟨rfl, rfl, -⟩ | ⟨i, hd, h⟩
  · simp
  · obtain rfl := encode_of_decode hd
    rw [argField_encode]
    rcases h with ⟨rfl, rfl, -⟩ | ⟨-, rfl, rfl, -⟩ | ⟨-, -, ⟨c, rfl, rfl, rfl, -⟩ |
      ⟨c, v, rfl, rfl, rfl, -⟩ | ⟨w, hi, rfl, rfl, -⟩⟩
    · simp [commandInfo]
    · simp [commandInfo]
    · simp [Instr.operand]
    · simp [commandInfo]
    · rcases hi with rfl | rfl | rfl <;> simp [Instr.operand]

/-- In READY a command that completes does not move the cursor back (41_cursor.md R80). -/
theorem Completes.pos_le {i : Instr} {s t : State} (h : Completes s t i) (hs : s.Inv)
    (hp : s.phase = .ready) (hl : legalIn i s.phase = true) : s.pos.toNat ≤ t.pos.toNat := by
  have advances {u : State} {w : Nat} (hpos : u.pos = s.pos) (hlen : u.len = s.len)
      (hw : w ≤ s.remaining) : s.pos.toNat ≤ (u.advance w).pos.toNat := by
    rw [State.advance_pos_toNat (by rw [hpos, hlen]; exact hs.cursor)
      (by rwa [State.remaining, hpos, hlen]), hpos]
    exact Nat.le_add_right ..
  cases i with
  | clr => exact h.elim
  | pushc c | sealf f => simp [legalIn, hp] at hl
  | rdb n =>
    obtain ⟨-, rfl⟩ := h
    simp
  | takeu w | takes w | taket w =>
    obtain ⟨hw, -, rfl⟩ := h
    exact advances (by simp) (by simp) hw
  | rem | sixa v =>
    cases h
    simp

end Sys2Proof.Machine

namespace Sys2Proof
open Machine

/-- Settles O9: a cleared state has the elements of the reset state. -/
theorem resetAndClrValues : Obligations.ResetAndClrValues := by
  refine ⟨⟨rfl, rfl, rfl, rfl, rfl, rfl, rfl, rfl, zeroText_getElem, rfl, rfl, rfl⟩, fun s => ?_⟩
  exact ⟨s.cleared.respondOk, rfl, rfl, rfl, rfl, rfl, rfl, by simp [State.curByte],
    by simp [State.curBit], rfl, zeroText_getElem, rfl, rfl, rfl⟩

/-- Settles O12, from the equation of a step on a command word. -/
theorem stepRunsTheDecodedCommand : Obligations.StepRunsTheDecodedCommand := by
  intro s w rest i hq hd
  rw [step_command hq, hd]

/-- Settles O39: only a completing SEAL and a fault change the phase, short of clearing. -/
theorem phaseTransitions : Obligations.PhaseTransitions := by
  refine ⟨fun s t hc h => (step_of_clearsNext hc h).1, fun s t hc h => ?_⟩
  cases step_effect h with
  | idle => exact .inl rfl
  | reset hq => exact absurd ⟨_, .inl hq⟩ hc
  | clr hq => exact absurd ⟨_, .inr hq⟩ hc
  | sticky => exact .inl rfl
  | raises _ _ hp => exact .inr (.inr ⟨hp, rfl⟩)
  | completes hq hd _ hp hl _ hcomp =>
    obtain ⟨-, -, -, -, hsame | ⟨hfill, hready, f, rfl⟩⟩ := hcomp.status hp hl
    · exact .inl hsame
    · exact .inr (.inl ⟨hfill, hready, f, _, by rw [encode_of_decode hd]; exact hq⟩)

/-- Settles O21, from the cause a raised fault records. -/
theorem einfoRecordsTheCause : Obligations.EinfoRecordsTheCause := by
  refine ⟨fun s w rest t hq h => ⟨fun hp ht => ?_, fun hw => ?_, fun hw hft => ?_⟩,
    fun s rest t hq h => (step_of_clearsNext ⟨_, .inl hq⟩ h).2⟩
  · cases step_effect h with
    | idle hq' => cases hq.symm.trans hq'
    | reset => cases ht
    | clr => cases ht
    | sticky _ _ hp' => exact absurd hp' hp
    | raises hq' _ _ hf =>
      cases hq.symm.trans hq'
      exact hf.info_eq
    | completes _ _ _ hp hl _ hc => exact absurd ht (hc.status hp hl).1
  · exact (step_of_clearsNext ⟨rest, .inr (hw ▸ hq)⟩ h).2
  · cases step_effect h with
    | idle hq' => rfl
    | reset hq' => cases hq.symm.trans hq'
    | clr hq' =>
      cases hq.symm.trans hq'
      exact absurd rfl hw
    | sticky => rfl
    | raises _ _ hp => exact absurd rfl (hft.resolve_left hp)
    | completes _ _ _ hp hl _ hc => exact (hc.status hp hl).2.2.1

/-- Settles O30: past FILL and short of clearing, only a completing command moves the cursor, forwards. -/
theorem cursorNeverGoesBack : Obligations.CursorNeverGoesBack := by
  intro s t hs hfill hc h
  cases step_effect h with
  | idle => exact le_rfl
  | reset hq => exact absurd ⟨_, .inl hq⟩ hc
  | clr hq => exact absurd ⟨_, .inr hq⟩ hc
  | sticky => exact le_rfl
  | raises => exact le_rfl
  | completes _ _ _ hp hl _ hcomp =>
    have hready : s.phase = .ready := by
      cases hphase : s.phase with
      | fill => exact absurd hphase hfill
      | ready => rfl
      | fault => exact absurd hphase hp
    exact hcomp.pos_le (hs.withPending _) hready hl

end Sys2Proof
end

section
/-!
The frames of the commands (10_state.md R21, R35, R37, 60_exceptions.md R100). A command other than CLR either
changes the status registers and the response only, or completes.
-/

namespace Sys2Proof.Machine

/-- The block is in FAULT and, of the registers, only the status may differ from before (R99, R100, R102). -/
structure FaultOnly (s t : State) : Prop where
  phase : t.phase = .fault
  bits : t.bits = s.bits
  nch : t.nch = s.nch
  len : t.len = s.len
  pos : t.pos = s.pos
  res : t.res = s.res
  txt : t.txt = s.txt
  tlen : t.tlen = s.tlen
  pending : t.pending = s.pending

/-- A command other than CLR ends in FAULT with the other registers as they were, or completes. -/
theorem exec_faultOnly_or_completes {i : Instr} {s t : State} (hi : i ≠ .clr) (h : exec i s = .next t) :
    FaultOnly s t ∨ (s.phase ≠ .fault ∧ legalIn i s.phase = true ∧ Completes s t i) := by
  rcases exec_next h with ⟨hclr, -⟩ | ⟨-, hp, rfl⟩ | ⟨-, -, f, info, -, rfl⟩ | ⟨-, hp, hl, -, hc⟩
  · exact absurd hclr hi
  · exact .inl ⟨hp, rfl, rfl, rfl, rfl, rfl, rfl, rfl, rfl⟩
  · exact .inl ⟨rfl, rfl, rfl, rfl, rfl, rfl, rfl, rfl, rfl⟩
  · exact .inr ⟨hp, hl, hc⟩

/-- A plain read that completes writes RES and answers, and does nothing else. -/
theorem Completes.plainRead {i : Instr} {s t : State} (h : Completes s t i)
    (hi : (∃ n, i = .rdb n) ∨ i = .rem ∨ ∃ v, i = .sixa v) : ∃ r, t = (s.setRes r).respondOk := by
  rcases hi with ⟨n, rfl⟩ | rfl | ⟨v, rfl⟩
  · exact ⟨_, h.2⟩
  · exact ⟨_, h⟩
  · exact ⟨_, h⟩

/-- A take that completes keeps the buffer, its counters and the status, and the text unless it is TAKET. -/
theorem Completes.take_frame {i : Instr} {w : Operand} {s t : State} (h : Completes s t i)
    (hi : IsTake i w) :
    t.bits = s.bits ∧ t.nch = s.nch ∧ t.len = s.len ∧ t.pending = s.pending ∧ t.phase = s.phase ∧
      t.err = s.err ∧ t.einfo = s.einfo ∧ (i ≠ .taket w → t.txt = s.txt ∧ t.tlen = s.tlen) := by
  rcases hi with rfl | rfl | rfl
  all_goals
    obtain ⟨-, -, rfl⟩ := h
    simp

/-- An append changes no bit but the six at its end. -/
theorem Memory.append_getElem?_outside (m : Memory) (v a : Nat) (h : a < m.length ∨ m.length + 6 ≤ a) :
    (m.append v)[a]? = m[a]? := by
  rcases h with h | h
  · exact Memory.append_getElem? m v a h
  · rw [List.getElem?_eq_none (by rwa [Memory.append_length]), List.getElem?_eq_none (by omega)]

end Sys2Proof.Machine

namespace Sys2Proof
open Machine

/-- Settles O35: a fault keeps all but the status, and a plain read that completes writes RES only. -/
theorem frameOfPlainReads : Obligations.FrameOfPlainReads := by
  intro i s t hi h
  have hclr : i ≠ .clr := by rcases hi with ⟨n, rfl⟩ | rfl | ⟨v, rfl⟩ <;> simp
  rcases exec_faultOnly_or_completes hclr h with hf | ⟨hp, -, hc⟩
  · exact ⟨fun a => by rw [hf.bits], hf.nch, hf.len, hf.pos, hf.txt, hf.tlen, hf.pending,
      fun ht => absurd hf.phase ht, fun _ => hf.res⟩
  · obtain ⟨r, rfl⟩ := hc.plainRead hi
    exact ⟨fun _ => rfl, rfl, rfl, rfl, rfl, rfl, rfl, fun _ => ⟨rfl, rfl, rfl⟩, fun ht => absurd ht hp⟩

/-- Settles O36: a fault keeps all but the status, and a take that completes keeps the buffer. -/
theorem frameOfTakes : Obligations.FrameOfTakes := by
  intro i w s t hi h
  have hclr : i ≠ .clr := by rcases hi with rfl | rfl | rfl <;> simp
  rcases exec_faultOnly_or_completes hclr h with hf | ⟨hp, -, hc⟩
  · exact ⟨fun a => by rw [hf.bits], hf.nch, hf.len, hf.pending, fun _ => ⟨hf.txt, hf.tlen⟩,
      fun ht => absurd hf.phase ht, fun _ => ⟨hf.res, hf.pos, hf.txt, hf.tlen⟩⟩
  · obtain ⟨hbits, hnch, hlen, hpending, hphase, herr, heinfo, htext⟩ := hc.take_frame hi
    exact ⟨fun a => by rw [hbits], hnch, hlen, hpending, htext, fun _ => ⟨hphase, herr, heinfo⟩,
      fun ht => absurd (hphase.symm.trans ht) hp⟩

/-- Settles O37: a fault keeps all but the status, and a PUSHC that completes appends six bits. -/
theorem frameOfPushc : Obligations.FrameOfPushc := by
  intro c s t h
  rcases exec_faultOnly_or_completes (by simp) h with hf | ⟨hp, -, v, -, -, rfl⟩
  · exact ⟨fun a _ => by rw [hf.bits], hf.len, hf.pos, hf.res, hf.txt, hf.tlen, hf.pending,
      fun ht => absurd hf.phase ht, fun _ => ⟨hf.bits, hf.nch⟩⟩
  · exact ⟨fun a ha => Memory.append_getElem?_outside s.bits v a ha, rfl, rfl, rfl, rfl, rfl, rfl,
      fun _ => ⟨Memory.append_length s.bits v, rfl, rfl, rfl, rfl⟩, fun ht => absurd ht hp⟩

/-- Settles O38: a fault keeps all but the status, and a SEAL that completes cuts the buffer. -/
theorem frameOfSeal : Obligations.FrameOfSeal := by
  intro f s t h
  rcases exec_faultOnly_or_completes (by simp) h with hf | ⟨-, -, rfl⟩
  · exact ⟨fun a _ => by rw [hf.bits], hf.nch, hf.txt, hf.tlen, hf.pending,
      fun ht => absurd hf.phase ht, fun _ => ⟨hf.bits, hf.len, hf.pos, hf.res⟩⟩
  · exact ⟨fun a ha => Memory.truncate_getElem? s.bits _ a ha, rfl, rfl, rfl, rfl,
      fun _ => ⟨rfl, rfl⟩, fun ht => by cases ht⟩

end Sys2Proof
end

section
/-!
The text output (10_state.md R17): TAKET writes characters in 32 to 95, the last never `'@'`; nothing else but CLR
and reset writes it.
-/

namespace Sys2Proof.Machine

/-- A sixbit group is below 64 (42_text.md R83). -/
theorem lt_of_mem_groups {m : Memory} {a n g : Nat} (h : g ∈ groups m a n) : g < 64 := by
  induction n generalizing a with
  | zero => cases h
  | succ n ih =>
    rcases List.mem_cons.1 h with rfl | h
    · exact extract_lt m a 6
    · exact ih h

/-- `Ascii6` of a sixbit value is in 32 to 95 (30_encoding.md R57). -/
theorem ascii6_range {g : Nat} (h : g < 64) : 32 ≤ ascii6 g ∧ ascii6 g ≤ 95 := by
  unfold ascii6
  split <;> omega

/-- Trimming only drops characters. -/
theorem mem_of_mem_trim {c : Byte} {cs : List Byte} (h : c ∈ trim cs) : c ∈ cs := by
  obtain ⟨l, -, ht, -⟩ := trim_eq_take cs
  exact List.mem_of_mem_take (ht ▸ h)

/-- A trimmed text does not end in `'@'` (42_text.md R85). -/
theorem trim_getLast?_ne (cs : List Byte) : (trim cs).getLast? ≠ some 64 := by
  obtain ⟨l, hl, ht, hlast, -⟩ := trim_eq_take cs
  rw [ht, List.getLast?_eq_getElem?, List.length_take, Nat.min_eq_left hl]
  rcases Nat.eq_zero_or_pos l with rfl | h0
  · simp
  · rw [List.getElem?_take_of_lt (by omega)]
    exact hlast h0

/-- A decoded character is in 32 to 95 (42_text.md R83). -/
theorem decodeText_range {m : Memory} {a w : Nat} {c : Byte} (h : c ∈ decodeText m a w) :
    32 ≤ c.toNat ∧ c.toNat ≤ 95 := by
  obtain ⟨g, hg, rfl⟩ := List.mem_map.1 (mem_of_mem_trim h)
  have hrange := ascii6_range (lt_of_mem_groups hg)
  rw [BitVec.toNat_ofNat, Nat.mod_eq_of_lt (by omega)]
  exact hrange

/-- The text output is a view of TXT and TLEN (10_state.md R17). -/
theorem State.text_congr {s t : State} (htxt : t.txt = s.txt) (htlen : t.tlen = s.tlen) :
    t.text = s.text := by
  rw [State.text, htxt, htlen, State.text]

/-- The text invariant speaks of the text output only. -/
theorem State.TextInv.congr {s t : State} (h : s.TextInv) (ht : t.text = s.text) : t.TextInv :=
  ⟨ht ▸ h.range, ht ▸ h.trimmed⟩

theorem State.TextInv.respondOk {s : State} (h : s.TextInv) : s.respondOk.TextInv := h.congr rfl

/-- A cleared block has no text. -/
theorem State.cleared_text (s : State) : s.cleared.text = [] := by simp [State.text]

theorem State.cleared_textInv (s : State) : s.cleared.TextInv := by
  constructor <;> simp [State.cleared_text]

/-- A command that completes keeps the text output, unless it is TAKET. -/
theorem Completes.text_eq {i : Instr} {s t : State} (h : Completes s t i) (hi : ∀ w, i ≠ .taket w) :
    t.text = s.text := by
  cases i with
  | clr => exact h.elim
  | pushc c =>
    obtain ⟨v, -, -, rfl⟩ := h
    rfl
  | rdb n =>
    obtain ⟨-, rfl⟩ := h
    rfl
  | takeu w | takes w =>
    obtain ⟨-, -, rfl⟩ := h
    exact State.text_congr (by simp) (by simp)
  | taket w => exact absurd rfl (hi w)
  | sealf f | rem | sixa v =>
    cases h
    rfl

/-- The text output of a TAKET that completes is the decoded field (42_text.md R84). -/
theorem Completes.taket_text {w : Operand} {s t : State} (h : Completes s t (.taket w))
    (ho : taketOperandOk w = true) : t.text = decodeText s.bits s.pos.toNat w.toNat := by
  obtain ⟨-, -, rfl⟩ := h
  exact (State.text_congr (by simp) (by simp)).trans
    (s.setText_text _ (decodeText_length_of_legal s.bits s.pos.toNat ho))

/-- A command that completes keeps the text invariant. -/
theorem Completes.textInv {i : Instr} {s t : State} (h : Completes s t i) (hs : s.TextInv)
    (ho : operandLegal s i = true) : t.TextInv := by
  cases i with
  | taket w =>
    have htext := h.taket_text ho
    exact ⟨by rw [htext]; exact fun c => decodeText_range, by rw [htext]; exact trim_getLast?_ne _⟩
  | _ => exact hs.congr (h.text_eq (by simp))

end Sys2Proof.Machine

namespace Sys2Proof
open Machine

/-- Settles O45, by the effects a step can have. -/
theorem stepKeepsTheTextInvariant : Obligations.StepKeepsTheTextInvariant := by
  intro s t hs h
  cases step_effect h with
  | idle => exact hs
  | reset => exact State.cleared_textInv _
  | clr => exact (State.cleared_textInv _).respondOk
  | sticky => exact hs.congr rfl
  | raises => exact hs.congr rfl
  | completes _ _ _ _ _ ho hc => exact hc.textInv (hs.congr rfl) ho

end Sys2Proof
end

section
/-!
Systems of several blocks (60_exceptions.md R107): a step of the system is one block's own step.
-/

namespace Sys2Proof.Machine

/-- The next state of an outcome that has one. -/
def nextState? : Result → Option State
  | .next t => some t
  | .fault _ => none
  | .refused _ => none

theorem nextState?_eq_some_iff {r : Result} {t : State} : nextState? r = some t ↔ r = .next t := by
  cases r <;> simp [nextState?]

/-- The next state of block `k`; `none` when there is no such block or when its step stops. -/
def System.ownStep (sys : System) (k : Nat) : Option State := sys[k]?.bind fun s => nextState? (step s)

/-- A step of the system stores what the block's own step gives. -/
theorem System.stepAt_eq_map (sys : System) (k : Nat) :
    sys.stepAt k = (sys.ownStep k).map (sys.set k ·) := by
  unfold System.stepAt System.ownStep
  cases sys[k]? with
  | none => rfl
  | some s =>
    simp only [Option.bind_some]
    cases step s <;> rfl

theorem System.ownStep_eq_some_iff {sys : System} {k : Nat} {t : State} :
    sys.ownStep k = some t ↔ ∃ s, sys[k]? = some s ∧ step s = .next t := by
  simp only [System.ownStep, Option.bind_eq_some_iff, nextState?_eq_some_iff]

/-- A step of the system, from the block's own step. -/
theorem System.stepAt_of_step {sys : System} {k : Nat} {s t : State} (hk : sys[k]? = some s)
    (h : step s = .next t) : sys.stepAt k = some (sys.set k t) := by
  rw [System.stepAt_eq_map, System.ownStep_eq_some_iff.2 ⟨s, hk, h⟩]
  rfl

/-- A step of the system is the own step of a block, stored in its place. -/
theorem System.stepAt_eq_some {sys sys' : System} {k : Nat} (h : sys.stepAt k = some sys') :
    ∃ s t, sys[k]? = some s ∧ step s = .next t ∧ sys' = sys.set k t := by
  rw [System.stepAt_eq_map, Option.map_eq_some_iff] at h
  obtain ⟨t, ht, rfl⟩ := h
  obtain ⟨s, hk, hs⟩ := System.ownStep_eq_some_iff.1 ht
  exact ⟨s, t, hk, hs, rfl⟩

/-- The step of one block leaves the others as they were. -/
theorem System.stepAt_getElem?_ne {sys sys' : System} {j k : Nat} (hjk : j ≠ k)
    (h : sys.stepAt j = some sys') : sys'[k]? = sys[k]? := by
  obtain ⟨-, t, -, -, rfl⟩ := System.stepAt_eq_some h
  exact List.getElem?_set_ne hjk

/-- Storing another block does not change what a block's own step gives. -/
theorem System.ownStep_set_ne (sys : System) {j k : Nat} (hjk : j ≠ k) (t : State) :
    System.ownStep (sys.set j t) k = sys.ownStep k := by
  rw [System.ownStep, List.getElem?_set_ne hjk, System.ownStep]

/-- Steps of two different blocks commute. -/
theorem System.stepAt_comm (sys : System) {j k : Nat} (hjk : j ≠ k) :
    (sys.stepAt j).bind (System.stepAt · k) = (sys.stepAt k).bind (System.stepAt · j) := by
  simp only [System.stepAt_eq_map]
  cases hj : sys.ownStep j <;> cases hk : sys.ownStep k <;>
    simp [System.ownStep_set_ne _ hjk, System.ownStep_set_ne _ hjk.symm, hj, hk, List.set_comm _ _ hjk]

/-- Under any schedule a block ends where its own run of as many steps ends. -/
theorem System.runSchedule_own_run {sys sys' : System} {schedule : List Nat}
    (h : sys.runSchedule schedule = some sys') {k : Nat} {s : State} (hk : sys[k]? = some s) :
    ∃ t : State, Host.Core.run core (schedule.count k) s = .next t ∧ sys'[k]? = some t := by
  induction schedule generalizing sys s with
  | nil =>
    cases h
    exact ⟨s, rfl, hk⟩
  | cons j schedule ih =>
    obtain ⟨next, hj, hrest⟩ := Option.bind_eq_some_iff.1 h
    by_cases hjk : j = k
    · subst hjk
      obtain ⟨s', u, hs', hu, rfl⟩ := System.stepAt_eq_some hj
      cases hk.symm.trans hs'
      obtain ⟨hlt, -⟩ := List.getElem?_eq_some_iff.1 hk
      obtain ⟨t, ht, hget⟩ := ih hrest (List.getElem?_set_self hlt)
      exact ⟨t, by rw [List.count_cons_self, run_succ _ hu, ht], hget⟩
    · rw [List.count_cons_of_ne hjk]
      exact ih hrest ((System.stepAt_getElem?_ne hjk hj).trans hk)

/-- Instances that meet the invariants can be scheduled in any way, and meet them afterwards. -/
theorem System.runSchedule_answers {sys : System} (hs : ∀ s ∈ sys, s.Inv) {schedule : List Nat}
    (hk : ∀ k ∈ schedule, k < sys.length) :
    ∃ sys', sys.runSchedule schedule = some sys' ∧ ∀ s ∈ sys', s.Inv := by
  induction schedule generalizing sys with
  | nil => exact ⟨sys, rfl, hs⟩
  | cons k schedule ih =>
    obtain ⟨hlt, hrest⟩ := List.forall_mem_cons.1 hk
    have hinv : sys[k].Inv := hs _ (List.getElem_mem hlt)
    obtain ⟨t, ht⟩ := step_answers hinv
    have hset : ∀ s ∈ sys.set k t, s.Inv := fun s hmem =>
      (List.mem_or_eq_of_mem_set hmem).elim (hs s) fun he => he ▸ hinv.step ht
    obtain ⟨sys', hrun, hinv'⟩ := ih hset (by simpa using hrest)
    refine ⟨sys', ?_, hinv'⟩
    rw [System.runSchedule, System.stepAt_of_step (List.getElem?_eq_getElem hlt) ht]
    exact hrun

end Sys2Proof.Machine

namespace Sys2Proof
open Machine

/-- Settles O54: each part is a fact about the step of one block, or an induction on the schedule. -/
theorem instancesStepIndependently : Obligations.InstancesStepIndependently := by
  refine ⟨fun sys k s t hk h => ?_, fun sys schedule sys' h k s hk => System.runSchedule_own_run h hk,
    fun sys hs schedule hk => System.runSchedule_answers hs hk,
    fun sys j k hjk => ⟨System.stepAt_comm sys hjk, fun sys' => System.stepAt_getElem?_ne hjk⟩⟩
  obtain ⟨hlt, -⟩ := List.getElem?_eq_some_iff.1 hk
  exact ⟨_, System.stepAt_of_step hk h, List.length_set, List.getElem?_set_self hlt,
    fun j hj => List.getElem?_set_ne hj.symm⟩

end Sys2Proof
end

section
/-!
Reads of the buffer (20_memory.md R30, R33): how the field of a join, and a field inside a field, are read.
-/

namespace Sys2Proof.Machine

/-- A substring is a shorter one and what follows it. -/
theorem slice_add (s : List Bool) (a n1 n2 : Nat) :
    slice s a (n1 + n2) = slice s a n1 ++ slice s (a + n1) n2 := by
  rw [slice, List.take_add, List.drop_drop, slice, slice]

/-- The value of a field is that of its first bits and of the bits after them (R33). -/
theorem extract_add (m : Memory) (a n1 n2 : Nat) (h : a + n1 + n2 ≤ m.length) :
    extract m a (n1 + n2) = extract m a n1 * 2 ^ n2 + extract m (a + n1) n2 := by
  rw [extract, slice_add, val_append, slice_length _ _ _ h, extract, extract]

/-- Without its last `d` bits a field is the field shifted right by `d`. -/
theorem extract_shiftRight (m : Memory) (a n d : Nat) (h : a + n + d ≤ m.length) :
    extract m a (n + d) >>> d = extract m a n := by
  have hlow : extract m (a + n) d < 2 ^ d := extract_lt m (a + n) d
  rw [extract_add m a n d h, Nat.shiftRight_eq_div_pow, Nat.mul_comm,
    Nat.mul_add_div (Nat.two_pow_pos d), Nat.div_eq_of_lt hlow, Nat.add_zero]

/-- The last `w` bits of a field are the field under a mask of `w` ones. -/
theorem extract_and_mask (m : Memory) (a n w : Nat) (h : a + n + w ≤ m.length) :
    extract m a (n + w) &&& (2 ^ w - 1) = extract m (a + n) w := by
  have hlow : extract m (a + n) w < 2 ^ w := extract_lt m (a + n) w
  rw [Nat.and_two_pow_sub_one_eq_mod, extract_add m a n w h, Nat.mul_add_mod_self_right,
    Nat.mod_eq_of_lt hlow]

/-- The `w` bits inside a field, `b` bits before them and `d` after: drop those after, mask those before. -/
theorem extract_inside (m : Memory) (a b w d : Nat) (h : a + (b + w + d) ≤ m.length) :
    (extract m a (b + w + d) >>> d) &&& (2 ^ w - 1) = extract m (a + b) w := by
  rw [extract_shiftRight m a (b + w) d (by omega), extract_and_mask m a b w (by omega)]

/-- The groups of a text field are its lanes in order (42_text.md R83). -/
theorem groups_eq_map_extract (m : Memory) (a n : Nat) :
    groups m a n = (List.range n).map fun j => extract m (a + 6 * j) 6 := by
  refine List.ext_getElem (by simp) fun j hj _ => ?_
  rw [groups_length] at hj
  have hget := groups_getElem? m a n j hj
  rw [List.getElem?_eq_getElem (by simpa using hj), Option.some.injEq] at hget
  simpa using hget

/-- Lane `j` of a text field of `n` characters is a slice of the field as one integer (42_text.md R87). -/
theorem lane_eq_slice (m : Memory) (a n j : Nat) (hj : j < n) (h : a + 6 * n ≤ m.length) :
    (extract m a (6 * n) >>> (6 * (n - 1 - j))) &&& 63 = extract m (a + 6 * j) 6 := by
  have hsplit : 6 * n = 6 * j + 6 + 6 * (n - 1 - j) := by omega
  rw [hsplit] at h ⊢
  exact extract_inside m a (6 * j) 6 (6 * (n - 1 - j)) h

end Sys2Proof.Machine

namespace Sys2Proof
open Machine

/-- Settles O48: the model's read joins for every width. -/
theorem adjacentReadsJoin : Obligations.AdjacentReadsJoin := extract_add

/-- Settles O34, lane by lane; the bound on `n` is not needed. -/
theorem lanesAreSlicesOfTheInteger : Obligations.LanesAreSlicesOfTheInteger := by
  intro m a n _ h
  rw [groups_eq_map_extract]
  refine List.map_congr_left fun j hj => ?_
  exact (lane_eq_slice m a n j (List.mem_range.1 hj) h).symm

end Sys2Proof
end

section
/-!
The byte-level extraction (41_cursor.md R77). The byte image is the buffer with zeros after it, cut into bytes
(20_memory.md R31), so the gather of bytes is one read of the padded buffer, and the field lies inside it.
-/

namespace Sys2Proof.Machine

/-- The buffer followed by seven zero bits: enough for the last byte of the image. -/
def Memory.padded (m : Memory) : Memory := m ++ List.replicate 7 false

@[simp] theorem Memory.padded_length (m : Memory) : m.padded.length = m.length + 7 := by
  simp [Memory.padded]

/-- `PadBit` reads the padded buffer (R31). -/
theorem Memory.padded_getElem? (m : Memory) (a : Nat) (h : a < m.length + 7) :
    m.padded[a]? = some (padBit m m.length a) := by
  by_cases ha : a < m.length
  · rw [Memory.padded, List.getElem?_append_left ha]
    simp [padBit, ha]
  · rw [Memory.padded, List.getElem?_append_right (by omega), List.getElem?_replicate_of_lt (by omega)]
    simp [padBit, ha]

/-- A field of the buffer is that field of the padded buffer. -/
theorem extract_padded (m : Memory) (a w : Nat) (h : a + w ≤ m.length) :
    extract m.padded a w = extract m a w := by
  have hdrop : w ≤ (m.drop a).length := by simp; omega
  rw [extract, slice, Memory.padded, List.drop_append_of_le_length (by omega),
    List.take_append_of_le_length hdrop, extract, slice]

/-- A byte of the image is eight bits of the padded buffer (R31). -/
theorem byteAt_eq_extract (m : Memory) (i : Nat) (h : 8 * i + 8 ≤ m.length + 7) :
    (byteAt m m.length i).toNat = extract m.padded (8 * i) 8 := by
  rw [byteAt_toNat, extract]
  congr 1
  refine List.ext_getElem? fun k => ?_
  by_cases hk : k < 8
  · rw [List.getElem?_map, List.getElem?_range hk, slice, List.getElem?_take_of_lt hk,
      List.getElem?_drop, Memory.padded_getElem? m _ (by omega)]
    rfl
  · rw [List.getElem?_eq_none (by simpa using hk),
      List.getElem?_eq_none (by rw [slice_length _ _ _ (by simpa using h)]; omega)]

/-- One more byte of the gather is appended at its low end (R77). -/
theorem gather_succ (m : Memory) (len B nb : Nat) :
    gather m len B (nb + 1) = gather m len B nb * 2 ^ 8 + (byteAt m len (B + nb)).toNat := by
  rw [← Nat.shiftLeft_eq, Nat.shiftLeft_add_eq_or_of_lt (byteAt m len (B + nb)).isLt]
  simp [gather, List.range_succ]

/-- The gather of `nb` bytes of the image is one read of `8 nb` bits of the padded buffer. -/
theorem gather_eq_extract (m : Memory) (B nb : Nat) (h : 8 * B + 8 * nb ≤ m.length + 7) :
    gather m m.length B nb = extract m.padded (8 * B) (8 * nb) := by
  induction nb with
  | zero => rfl
  | succ nb ih =>
    rw [gather_succ, ih (by omega), byteAt_eq_extract m (B + nb) (by omega), Nat.mul_succ,
      extract_add m.padded (8 * B) (8 * nb) 8 (by rw [Memory.padded_length]; omega), Nat.mul_add]

/-- The bytes a field touches hold no more bits than the padded buffer has. -/
theorem gathered_bits_le (a w n : Nat) (h : a + w ≤ n) :
    8 * (a / 8) + 8 * ceil8 (a % 8 + w) ≤ n + 7 := by
  rw [ceil8]
  omega

/-- The byte-level extraction is the bit-level one, for a field of any width that exists. -/
theorem extractBytes_eq_extract (m : Memory) (a w : Nat) (h : a + w ≤ m.length) :
    extractBytes m m.length (a / 8) (a % 8) w = extract m a w := by
  have hbits := gathered_bits_le a w m.length h
  have hfield : 8 * ceil8 (a % 8 + w) = a % 8 + w + (8 * ceil8 (a % 8 + w) - (a % 8 + w)) := by
    rw [ceil8]
    omega
  rw [extractBytes, gather_eq_extract m _ _ hbits]
  generalize 8 * ceil8 (a % 8 + w) - (a % 8 + w) = d at hfield ⊢
  rw [hfield] at hbits ⊢
  rw [extract_inside m.padded _ _ w d (by rw [Memory.padded_length]; exact hbits), Nat.div_add_mod,
    extract_padded m a w h]

/-- A field that exists touches bytes of the image only (20_memory.md R34). -/
theorem touched_bytes_le (a w n : Nat) (h : a + w ≤ n) : a / 8 + ceil8 (a % 8 + w) ≤ ceil8 n := by
  simp only [ceil8]
  omega

/-- A field of up to 32 bits touches at most 5 bytes, and 5 only when it is wide and ends late (R34). -/
theorem touched_bytes_count (a w : Nat) (hw : w ≤ 32) :
    ceil8 (a % 8 + w) ≤ 5 ∧ (ceil8 (a % 8 + w) = 5 → 26 ≤ w ∧ 33 ≤ a % 8 + w) := by
  rw [ceil8]
  omega

end Sys2Proof.Machine

namespace Sys2Proof
open Machine

/-- Settles O47: the value by the padded buffer, the bounds by the arithmetic of `ceil8`. -/
theorem byteExtractionEqualsBitExtraction : Obligations.ByteExtractionEqualsBitExtraction :=
  fun m a w _ hw h =>
    ⟨extractBytes_eq_extract m a w h, touched_bytes_le a w m.length h, touched_bytes_count a w hw⟩

end Sys2Proof
end

section
/-!
Plain reads again (20_memory.md R37): what RDB, REM and SIXA read, and whether they are legal, does not depend on
the RES and the response they wrote.
-/

namespace Sys2Proof.Machine

variable {i : Instr} {s t u : State}

/-- A command other than CLR that ends outside FAULT has completed, and its checks were passed. -/
theorem exec_completes (hi : i ≠ .clr) (h : exec i s = .next t) (ht : t.phase ≠ .fault) :
    s.phase ≠ .fault ∧ legalIn i s.phase = true ∧ operandLegal s i = true ∧ Completes s t i := by
  rcases exec_next h with ⟨hclr, -⟩ | ⟨-, hp, rfl⟩ | ⟨-, -, f, info, -, rfl⟩ | ⟨-, hdone⟩
  · exact absurd hclr hi
  · exact absurd hp ht
  · exact absurd rfl ht
  · exact hdone

/-- The operand check reads NCH and LEN only (30_encoding.md R45). -/
theorem operandLegal_congr (i : Instr) (hnch : t.nch = s.nch) (hlen : t.len = s.len) :
    operandLegal t i = operandLegal s i := by
  cases i with
  | sealf f => exact congrArg (sealOperandOk f) hnch
  | rdb n => exact congrArg (rdbOperandOk n) hlen
  | _ => rfl

variable (hi : (∃ n, i = .rdb n) ∨ i = .rem ∨ ∃ v, i = .sixa v)

include hi

/-- A plain read has no fault of its own beyond the checks of phase and operand (60_exceptions.md R101). -/
theorem not_raises_of_plainRead (hl : legalIn i s.phase = true) (ho : operandLegal s i = true)
    (f : FaultCode) (info : Word) : ¬Raises i s f info := by
  rintro (⟨-, -, hl'⟩ | ⟨-, -, -, ho'⟩ | ⟨-, -, ⟨c, rfl, -⟩ | ⟨c, v, rfl, -⟩ | ⟨w, hw, -⟩⟩)
  · exact Bool.false_ne_true (hl'.symm.trans hl)
  · exact Bool.false_ne_true (ho'.symm.trans ho)
  · simp at hi
  · simp at hi
  · rcases hw with rfl | rfl | rfl <;> simp at hi

/-- A plain read that passes the checks of phase and operand completes, if it answers. -/
theorem plainRead_completes (hp : s.phase ≠ .fault) (hl : legalIn i s.phase = true)
    (ho : operandLegal s i = true) (h : exec i s = .next t) : Completes s t i := by
  rcases exec_next h with ⟨rfl, -⟩ | ⟨-, hp', -⟩ | ⟨-, -, f, info, hf, -⟩ | ⟨-, -, -, -, hc⟩
  · simp at hi
  · exact absurd hp' hp
  · exact absurd hf (not_raises_of_plainRead hi hl ho f info)
  · exact hc

/-- Two completions of a plain read, one after the other, give the same RES. -/
theorem Completes.plainRead_repeat (h1 : Completes s t i) (h2 : Completes t u i) :
    u.res = t.res ∧ u.phase = t.phase := by
  rcases hi with ⟨n, rfl⟩ | rfl | ⟨v, rfl⟩
  · obtain ⟨-, rfl⟩ := h1
    obtain ⟨-, rfl⟩ := h2
    exact ⟨rfl, rfl⟩
  all_goals
    cases h1
    cases h2
    exact ⟨rfl, rfl⟩

end Sys2Proof.Machine

namespace Sys2Proof
open Machine

/-- Settles O42: a plain read leaves what its checks depend on, so it completes again, with the same value. -/
theorem plainReadsRepeat : Obligations.PlainReadsRepeat := by
  intro i s t u hi h ht hu
  have hclr : i ≠ .clr := by rintro rfl; simp at hi
  obtain ⟨-, hl, ho, hc⟩ := exec_completes hclr h ht
  have hc' : Completes t u i := by
    obtain ⟨r, rfl⟩ := hc.plainRead hi
    exact plainRead_completes hi ht hl ((operandLegal_congr i rfl rfl).trans ho) hu
  exact hc.plainRead_repeat hi hc'

end Sys2Proof
end

section
/-!
The decoder against the encoder and the opcode map (30_encoding.md R44 to R47). A row of the map tests the
opcode and the must-be-zero bits of a word, as the decoder does.
-/

namespace Sys2Proof

/-- The must-be-zero test of a command's own field is well-formedness (30_encoding.md R45). -/
theorem mbzClear_operand (i : Instr) : mbzClear i.operandBits i.operand = i.wellFormed :=
  Bool.eq_iff_iff.2 ((mbzClear_iff _ _).trans (wellFormed_iff i).symm)

/-- Decoding undoes encoding, on the terms whose operand fits (30_encoding.md R47). -/
theorem decode_encode (i : Instr) :
    decode (encode i) = if i.wellFormed then .ok i else .error (.mustBeZero i.opcode) := by
  rw [← mbzClear_operand]
  simp only [decode, opField_encode, argField_encode]
  cases i <;> rfl

theorem decode_encode_of_wellFormed {i : Instr} (h : i.wellFormed = true) : decode (encode i) = .ok i := by
  rw [decode_encode, if_pos h]

/-- A decoded command is well formed: its word decodes. -/
theorem wellFormed_of_decode {w : CommandWord} {i : Instr} (h : decode w = .ok i) :
    i.wellFormed = true := by
  by_contra hi
  have hbad := decode_encode i
  rw [encode_of_decode h, h, if_neg hi] at hbad
  cases hbad

/-- A row whose mask holds the whole opcode compares the opcode, and the masked operand. -/
theorem matchesWord_iff {r : OpcodeRow} (hmask : opField r.mask = 15#4) (w : CommandWord) :
    r.matchesWord w = true ↔
      opField w = opField r.pattern ∧ argField w &&& argField r.mask = argField r.pattern := by
  have hop : opField (w &&& r.mask) = opField w := by
    rw [opField, BitVec.extractLsb'_and, ← opField, ← opField, hmask]
    exact BitVec.and_allOnes
  have harg : argField (w &&& r.mask) = argField w &&& argField r.mask := BitVec.extractLsb'_and
  rw [OpcodeRow.matchesWord, beq_iff_eq, ← hop, ← harg]
  refine ⟨fun h => ⟨congrArg opField h, congrArg argField h⟩, fun ⟨hop, harg⟩ => ?_⟩
  rw [← append_fields (w &&& r.mask), hop, harg, append_fields]

/-- Every row of the map tests the whole opcode, and its other bits are must-be-zero bits (R46). -/
theorem opcodeMap_fields : ∀ r ∈ opcodeMap, opField r.mask = 15#4 ∧ argField r.pattern = 0 := by decide

/-- No two rows have the same opcode. -/
theorem opcodeMap_opcodes_differ :
    opcodeMap.Pairwise fun r q => opField r.pattern ≠ opField q.pattern := by decide

/-- What a word that matches a row of the map has in its two fields. -/
theorem fields_of_matchesWord {r : OpcodeRow} (hr : r ∈ opcodeMap) {w : CommandWord}
    (h : r.matchesWord w = true) : opField w = opField r.pattern ∧ argField w &&& argField r.mask = 0 := by
  obtain ⟨hmask, hpattern⟩ := opcodeMap_fields r hr
  rw [← hpattern]
  exact (matchesWord_iff hmask w).1 h

/-- An operand with no bit at or above `n` fits `n` bits. -/
theorem fits_of_and_mask {n : Nat} {arg : Operand} (h : arg &&& (BitVec.allOnes 12 <<< n) = 0) :
    arg.toNat < 2 ^ n := by
  refine Nat.lt_pow_two_of_testBit _ fun k hk => ?_
  by_cases h12 : k < 12
  · have hmask : (BitVec.allOnes 12 <<< n).getLsbD k = true := by
      rw [BitVec.getLsbD_shiftLeft, BitVec.getLsbD_allOnes]
      simp [h12, hk, show k - n < 12 by omega]
    have hbit : (arg &&& (BitVec.allOnes 12 <<< n)).getLsbD k = false := by
      rw [h]
      exact BitVec.getLsbD_zero
    rwa [BitVec.getLsbD_and, hmask, Bool.and_true] at hbit
  · exact BitVec.getLsbD_of_ge arg k (Nat.le_of_not_lt h12)

/-- The command of a row, with an operand that has no bit under the row's mask. -/
theorem exists_command_of_row {r : OpcodeRow} (hr : r ∈ opcodeMap) {arg : Operand}
    (h : arg &&& argField r.mask = 0) :
    ∃ i : Instr, i.wellFormed = true ∧ i.mnemonic = r.mnemonic ∧ i.opcode = opField r.pattern ∧
      i.operand = arg := by
  have noOperand (h : arg &&& 0xFFF#12 = 0) : 0 = arg := h.symm.trans BitVec.and_allOnes
  have fits (n : Nat) (h : arg &&& (BitVec.allOnes 12 <<< n) = 0) := fits_of_and_mask h
  simp only [opcodeMap, List.mem_cons, List.not_mem_nil, or_false] at hr
  rcases hr with rfl | rfl | rfl | rfl | rfl | rfl | rfl | rfl | rfl
  · exact ⟨.clr, rfl, rfl, rfl, noOperand h⟩
  · exact ⟨.pushc arg, (wellFormed_iff _).2 (fits 8 h), rfl, rfl, rfl⟩
  · exact ⟨.sealf arg, (wellFormed_iff _).2 (fits 3 h), rfl, rfl, rfl⟩
  · exact ⟨.rdb arg, (wellFormed_iff _).2 (fits 12 h), rfl, rfl, rfl⟩
  · exact ⟨.rem, rfl, rfl, rfl, noOperand h⟩
  · exact ⟨.takeu arg, (wellFormed_iff _).2 (fits 6 h), rfl, rfl, rfl⟩
  · exact ⟨.takes arg, (wellFormed_iff _).2 (fits 6 h), rfl, rfl, rfl⟩
  · exact ⟨.taket arg, (wellFormed_iff _).2 (fits 8 h), rfl, rfl, rfl⟩
  · exact ⟨.sixa arg, (wellFormed_iff _).2 (fits 6 h), rfl, rfl, rfl⟩

/-- Bits that a mask does not hold are kept by its complement. -/
theorem and_not_of_and_eq_zero {n : Nat} {x m : BitVec n} (h : x &&& m = 0) : x &&& ~~~m = x := by
  refine BitVec.eq_of_getLsbD_eq fun k hk => ?_
  have hbit := congrArg (BitVec.getLsbD · k) h
  rw [BitVec.getLsbD_and, BitVec.getLsbD_not]
  cases hx : x.getLsbD k with
  | false => rfl
  | true => simpa [hx, hk] using hbit

/-- The bits of a word outside a mask are its operand, when the mask holds the opcode and no bit of the
operand. -/
theorem and_not_mask {w mask : CommandWord} (hmask : opField mask = 15#4)
    (harg : argField w &&& argField mask = 0) : w &&& ~~~mask = (argField w).setWidth 16 := by
  have hop : opField w &&& ~~~opField mask = 0#4 := by
    rw [hmask]
    exact BitVec.and_zero
  calc w &&& ~~~mask
      = (opField w ++ argField w) &&& ~~~(opField mask ++ argField mask) := by
        rw [append_fields, append_fields]
    _ = 0#4 ++ argField w := by
        rw [BitVec.not_append, BitVec.and_append, hop, and_not_of_and_eq_zero harg]
    _ = (argField w).setWidth 16 := (BitVec.setWidth_eq_append (by decide)).symm

/-- A word that matches a row decodes to the command of that row (R46). -/
theorem decode_of_matchesWord {r : OpcodeRow} (hr : r ∈ opcodeMap) {w : CommandWord}
    (h : r.matchesWord w = true) :
    ∃ i, decode w = .ok i ∧ i.mnemonic = r.mnemonic ∧ i.operand.setWidth 16 = w &&& ~~~r.mask := by
  obtain ⟨hop, harg⟩ := fields_of_matchesWord hr h
  obtain ⟨i, hwf, hname, hopcode, hoperand⟩ := exists_command_of_row hr harg
  have hword : encode i = w := by rw [encode, hopcode, hoperand, ← hop, append_fields]
  refine ⟨i, hword ▸ decode_encode_of_wellFormed hwf, hname, ?_⟩
  rw [hoperand, and_not_mask (opcodeMap_fields r hr).1 harg]

/-- The word of a well-formed command matches a row (R46). -/
theorem exists_row_of_wellFormed {i : Instr} (h : i.wellFormed = true) :
    ∃ r ∈ opcodeMap, r.matchesWord (encode i) = true := by
  have hrow : Laws.MapRow.Statement i := by
    cases i with
    | clr => exact Laws.MapRow.clr
    | pushc c => exact Laws.MapRow.pushc c
    | sealf f => exact Laws.MapRow.sealf f
    | rdb n => exact Laws.MapRow.rdb n
    | rem => exact Laws.MapRow.rem
    | takeu w => exact Laws.MapRow.takeu w
    | takes w => exact Laws.MapRow.takes w
    | taket w => exact Laws.MapRow.taket w
    | sixa v => exact Laws.MapRow.sixa v
  obtain ⟨r, hr, -, hmatch⟩ := hrow h
  exact ⟨r, hr, hmatch⟩

/-- Settles O2: the decoder's must-be-zero test of the encoded operand is well-formedness. -/
theorem decodeOfEncode : Obligations.DecodeOfEncode := decode_encode

/-- Settles O3: the word has the two fields of what it decodes to. -/
theorem encodeOfDecode : Obligations.EncodeOfDecode :=
  fun _ _ h => ⟨encode_of_decode h, wellFormed_of_decode h⟩

/-- Settles O4: a row and the decoder test the same bits. -/
theorem decodeIsTheOpcodeMap : Obligations.DecodeIsTheOpcodeMap := by
  refine ⟨opcodeMap_opcodes_differ.imp_of_mem fun hr hq hne w ⟨hrw, hqw⟩ => ?_, fun w => ?_⟩
  · exact hne ((fields_of_matchesWord hr hrw).1.symm.trans (fields_of_matchesWord hq hqw).1)
  · cases hfind : opcodeMap.find? (·.matchesWord w) with
    | some r =>
      have hmatch : r.matchesWord w = true := by simpa using List.find?_some hfind
      exact decode_of_matchesWord (List.mem_of_find?_eq_some hfind) hmatch
    | none =>
      cases hd : decode w with
      | error e => exact ⟨e, rfl⟩
      | ok i =>
        obtain ⟨r, hr, hmatch⟩ := exists_row_of_wellFormed (wellFormed_of_decode hd)
        rw [encode_of_decode hd] at hmatch
        exact absurd hmatch (List.find?_eq_none.1 hfind r hr)

/-- Settles O1: eleven closed words, decoded by computation. -/
theorem decodeOfSpecWords : Obligations.DecodeOfSpecWords := by
  unfold Obligations.DecodeOfSpecWords
  decide

end Sys2Proof
end

section
/-!
The two 6-bit alphabets (30_encoding.md R55 to R58), each with the inverse that 42_text.md R89 names.
-/

namespace Sys2Proof.Machine

/-- `Sixbit` and its inverse: the values below 64 (30_encoding.md R55). -/
theorem sixbit_eq_some_iff (c v : Nat) : sixbit c = some v ↔ v < 64 ∧ c = sixbitInverse v := by
  unfold sixbit sixbitInverse
  split
  · rw [Option.some.injEq]
    split <;> omega
  · split
    · rw [Option.some.injEq]
      split <;> omega
    · refine iff_of_false nofun ?_
      split <;> omega

/-- `Ascii6` and its inverse: the codes 32 to 95 (30_encoding.md R57). -/
theorem ascii6_eq_iff (n code : Nat) :
    (n < 64 ∧ ascii6 n = code) ↔ (32 ≤ code ∧ code ≤ 95) ∧ n = ascii6Inverse code := by
  unfold ascii6 ascii6Inverse
  split <;> split <;> omega

/-- The inverses of the two alphabets give different characters (30_encoding.md R58). -/
theorem ascii6_ne_sixbitInverse (n : Nat) : ascii6 n ≠ sixbitInverse n := by
  unfold ascii6 sixbitInverse
  split <;> split <;> omega

end Sys2Proof.Machine

namespace Sys2Proof
open Machine

/-- Settles O6: `sixbitInverse` gives the one code of each value below 64. -/
theorem armorAlphabetIsABijection : Obligations.ArmorAlphabetIsABijection := by
  refine ⟨fun _ => rfl,
    fun v => ⟨fun hv => ⟨sixbitInverse v, ?_, fun c hc => ?_⟩, fun ⟨c, hc, _⟩ => ?_⟩⟩
  · exact (sixbit_eq_some_iff _ v).2 ⟨hv, rfl⟩
  · exact ((sixbit_eq_some_iff c v).1 hc).2
  · exact ((sixbit_eq_some_iff c v).1 hc).1

/-- Settles O7: `ascii6Inverse` gives the one value of each code from 32 to 95. -/
theorem textAlphabetIsABijection : Obligations.TextAlphabetIsABijection := by
  refine ⟨fun _ _ => rfl,
    fun code => ⟨fun hcode => ⟨ascii6Inverse code, ?_, fun n hn => ?_⟩, fun ⟨n, hn, _⟩ => ?_⟩⟩
  · exact (ascii6_eq_iff _ code).2 ⟨hcode, rfl⟩
  · exact ((ascii6_eq_iff n code).1 hn).2
  · exact ((ascii6_eq_iff n code).1 hn).1

/-- Settles O8: a character of value `n` is `sixbitInverse n`. -/
theorem alphabetsAgreeNowhere : Obligations.AlphabetsAgreeNowhere := by
  intro n c _ hc
  rw [((sixbit_eq_some_iff c n).1 hc).2]
  exact ascii6_ne_sixbitInverse n

end Sys2Proof
end

section
/-!
The responses (30_encoding.md R48): one to each word, with RES, with the text for TAKET, or with ERR.
-/

namespace Sys2Proof.Machine

/-- The code of every fault is 1 to 6 (60_exceptions.md R91). -/
theorem FaultCode.code_range {f : FaultCode} (h : f ≠ .none) :
    1 ≤ f.code.toNat ∧ f.code.toNat ≤ 6 := by
  cases f with
  | none => exact absurd rfl h
  | _ => decide

/-- SIXA in FILL and READY completes (42_text.md R87). -/
theorem exec_sixa {s : State} (hp : s.phase ≠ .fault) (v : Operand) :
    exec (.sixa v) s = .next (s.setRes (zext32 (ascii6 v.toNat))).respondOk := by
  have hl : legalIn (.sixa v) s.phase = true := by
    cases hphase : s.phase with
    | fault => exact absurd hphase hp
    | fill | ready => rfl
  exact checked_of_legal _ hp hl

/-- A TAKET that completes answers with RES and the text (R48). -/
theorem Completes.taket_responses {w : Operand} {s t : State} (h : Completes s t (.taket w)) :
    t.responses = s.responses ++ [.okText t.res t.text] := by
  obtain ⟨-, -, rfl⟩ := h
  rfl

/-- Any other command that completes answers with RES (R48). -/
theorem Completes.ok_responses {i : Instr} {s t : State} (h : Completes s t i) (hi : ∀ w, i ≠ .taket w) :
    t.responses = s.responses ++ [.ok t.res] := by
  cases i with
  | clr => exact h.elim
  | pushc c =>
    obtain ⟨v, -, -, rfl⟩ := h
    rfl
  | rdb n =>
    obtain ⟨-, rfl⟩ := h
    rfl
  | takeu w | takes w =>
    obtain ⟨-, -, rfl⟩ := h
    rfl
  | taket w => exact absurd rfl (hi w)
  | sealf f | rem | sixa v =>
    cases h
    rfl

end Sys2Proof.Machine

namespace Sys2Proof
open Machine

/-- Settles O33: SIXA completes, with its full effect. -/
theorem sixaMapsOneCharacter : Obligations.SixaMapsOneCharacter := by
  intro v s hp
  rw [exec_sixa hp]
  exact congrArg _ (Completes.fullEffect (i := .sixa v) rfl rfl)

/-- Settles O41, by the effects a step can have. -/
theorem oneResponsePerCommand : Obligations.OneResponsePerCommand := by
  refine ⟨fun s w rest t hs hq h => ?_, fun s t hc htaket h => ?_⟩
  · cases step_effect h with
    | idle hq' => cases hq.symm.trans hq'
    | reset hq' => cases hq.symm.trans hq'
    | clr hq' =>
      cases hq.symm.trans hq'
      refine ⟨.ok 0, rfl, by simp, rfl, fun ⟨b, hb⟩ => ?_⟩
      cases ((decode_eq_clr_iff 0).2 rfl).symm.trans hb
    | sticky _ _ hp =>
      have herr : s.err ≠ .none := fun herr => hs.latch.1 herr hp
      exact ⟨.err s.err, rfl, hp, rfl, FaultCode.code_range herr⟩
    | raises _ _ _ hf => exact ⟨.err _, rfl, rfl, rfl, FaultCode.code_range hf.ne_none⟩
    | @completes _ _ i _ hq' hd _ hp hl _ hcomp =>
      cases hq.symm.trans hq'
      have hphase := (hcomp.status hp hl).1
      by_cases hi : ∃ b, i = .taket b
      · obtain ⟨b, rfl⟩ := hi
        exact ⟨_, hcomp.taket_responses, hphase, rfl, rfl, b, hd⟩
      · refine ⟨_, hcomp.ok_responses fun b hb => hi ⟨b, hb⟩, hphase, rfl, fun ⟨b, hb⟩ => ?_⟩
        exact hi ⟨b, Except.ok.inj (hd.symm.trans hb)⟩
  · cases step_effect h with
    | idle => rfl
    | reset hq => exact absurd ⟨_, .inl hq⟩ hc
    | clr hq => exact absurd ⟨_, .inr hq⟩ hc
    | sticky => rfl
    | raises => rfl
    | completes hq hd _ _ _ _ hcomp => exact hcomp.text_eq fun b hb => htaket _ _ b hq (hb ▸ hd)

end Sys2Proof
end

section
/-!
The assembler line of UNARMOR (30_encoding.md R53), part by part.
-/

namespace Sys2Proof.Machine.Assembler

/-- A string without a double quote or a backslash ends at the next double quote. -/
theorem quoted_append {text : List Char} (h : ∀ c ∈ text, c ≠ '"' ∧ c ≠ '\\') (left : List Char) :
    quoted (text ++ '"' :: left) = some (text, left) := by
  induction text with
  | nil => rfl
  | cons c text ih =>
    obtain ⟨⟨hquote, hslash⟩, htext⟩ := List.forall_mem_cons.1 h
    rw [List.cons_append, quoted, ih htext]
    · rfl
    · exact hquote
    · exact fun _ hc _ => hslash hc

/-- A digit below 8, after a blank, is the number it shows. -/
theorem number_digit : ∀ f : Fin 8,
    number (skipBlank [' ', Char.ofNat (48 + f.val)]) = some (f.val, []) := by decide

/-- What follows the mnemonic in the line: the string, the comma, the digit. -/
theorem unarmorLine_digit {text : List Char} (h : ∀ c ∈ text, c.toNat < 256 ∧ c ≠ '"' ∧ c ≠ '\\')
    (f : Fin 8) :
    unarmorLine (' ' :: '"' :: (text ++ ['"', ',', ' ', Char.ofNat (48 + f.val)])) =
      some (unarmorCommands (text.map fun c => BitVec.ofNat 8 c.toNat) (BitVec.ofNat 12 f.val)) := by
  have hstart (left : List Char) : skipBlank (' ' :: '"' :: left) = '"' :: left := rfl
  have hcomma (left : List Char) : skipBlank (',' :: left) = ',' :: left := rfl
  have hcodes : text.all (fun c => c.toNat < 256) = true :=
    List.all_eq_true.2 fun c hc => decide_eq_true (h c hc).1
  simp only [unarmorLine, hstart, quoted_append fun c hc => (h c hc).2, hcomma, number_digit]
  exact if_pos ⟨rfl, f.isLt, hcodes⟩

/-- The line of the mnemonic UNARMOR is what follows it. -/
theorem line_unarmor (rest : List Char) :
    line ("UNARMOR".toList ++ ' ' :: rest) = unarmorLine (' ' :: rest) := rfl

end Sys2Proof.Machine.Assembler

namespace Sys2Proof
open Machine

/-- The commands of `UNARMOR` with each character's code as the operand (30_encoding.md R53). -/
theorem unarmorCommands_ofNat {text : List Char} (h : ∀ c ∈ text, c.toNat < 256) (f : Operand) :
    unarmorCommands (text.map fun c => BitVec.ofNat 8 c.toNat) f =
      .clr :: text.map (fun c => .pushc (BitVec.ofNat 12 c.toNat)) ++ [.sealf f] := by
  have hcode : ∀ c ∈ text, (BitVec.ofNat 8 c.toNat).setWidth 12 = BitVec.ofNat 12 c.toNat := by
    intro c hc
    have hlt := h c hc
    apply BitVec.eq_of_toNat_eq
    simp only [BitVec.toNat_setWidth, BitVec.toNat_ofNat]
    omega
  rw [unarmorCommands, List.map_map]
  exact congrArg (.clr :: · ++ [.sealf f])
    (List.map_congr_left fun c hc => congrArg Instr.pushc (hcode c hc))

/-- Settles O5: the mnemonic, the string, the comma, the digit. -/
theorem unarmorLineExpands : Obligations.UnarmorLineExpands := by
  intro text f h
  rw [← unarmorCommands_ofNat (fun c hc => (h c hc).1), ← Assembler.unarmorLine_digit h]
  exact Assembler.line_unarmor _

end Sys2Proof
end

section
/-!
The UNARMOR sequence (30_encoding.md R53, 40_armor.md R62 to R69), command by command: CLR, the characters up
to the first bad one (`run_clr_pushes`), then SEAL, or the fault and what FAULT ignores after it
(`run_of_fault`).
-/

namespace Sys2Proof.Machine

/-! ## Runs and words -/

/-- A run of `m + n` steps is one of `n` steps from where one of `m` steps ends. -/
theorem run_add {m n : Nat} {s t : State} (h : Host.Core.run core m s = .next t) :
    Host.Core.run core (m + n) s = Host.Core.run core n t := by
  induction m generalizing s with
  | zero =>
    cases h
    rw [Nat.zero_add]
  | succ m ih =>
    cases hs : step s with
    | next u =>
      rw [run_succ m hs] at h
      rw [Nat.add_right_comm, run_succ (m + n) hs, ih h]
    | fault r => simp [Host.Core.run, show core.step s = .fault r from hs] at h
    | refused r => simp [Host.Core.run, show core.step s = .refused r from hs] at h

/-- A run of one step. -/
theorem run_one {s t : State} (h : step s = .next t) : Host.Core.run core 1 s = .next t :=
  run_succ 0 h

/-- A step on the word of a well-formed command. -/
theorem step_encode {s : State} {i : Instr} {rest : List Input} (hi : i.wellFormed = true)
    (hq : s.pending = .command (encode i) :: rest) : step s = exec i { s with pending := rest } := by
  rw [step_command hq, decode_encode_of_wellFormed hi]

/-- Of the well-formed commands only CLR has the word 0. -/
theorem encode_ne_zero {i : Instr} (hwf : i.wellFormed = true) (hi : i ≠ .clr) : encode i ≠ 0 := by
  intro hz
  have hd := decode_encode_of_wellFormed hwf
  rw [hz, (decode_eq_clr_iff 0).2 rfl] at hd
  exact hi (Except.ok.inj hd).symm

theorem asInputs_append (is js : List Instr) : asInputs (is ++ js) = asInputs is ++ asInputs js :=
  List.map_append

/-! ## Characters -/

/-- The command that pushes a character. -/
def pushByte (c : Byte) : Instr := .pushc (c.setWidth 12)

theorem unarmorCommands_eq (text : List Byte) (f : Operand) :
    unarmorCommands text f = .clr :: text.map pushByte ++ [.sealf f] := rfl

theorem setWidth_toNat (c : Byte) : (c.setWidth 12).toNat = c.toNat :=
  BitVec.toNat_setWidth_of_le (by decide)

theorem pushByte_wellFormed (c : Byte) : (pushByte c).wellFormed = true :=
  (wellFormed_iff _).2 ((setWidth_toNat c).trans_lt c.isLt)

/-- The block after `n` accepted characters that gave the bits `b` (40_armor.md R64). -/
def State.pushed (s : State) (b : Memory) (n : Nat) (rest : List Input) : State :=
  { s with
    bits := s.bits ++ b, nch := s.nch + BitVec.ofNat 16 n, pending := rest
    responses := s.responses ++ List.replicate n (.ok s.res) }

theorem State.pushed_zero (s : State) : s.pushed [] 0 s.pending = s := by simp [State.pushed]

theorem State.pushed_pushed (s : State) (b1 b2 : Memory) (n1 n2 : Nat) (r1 r2 : List Input) :
    (s.pushed b1 n1 r1).pushed b2 n2 r2 = s.pushed (b1 ++ b2) (n1 + n2) r2 := by
  simp [State.pushed, BitVec.add_assoc, BitVec.ofNat_add]

/-- PUSHC of a legal character within the capacity (40_armor.md R64). -/
theorem step_push {s : State} {c : Byte} {v : Nat} {rest : List Input} (hp : s.phase = .fill)
    (hv : sixbit c.toNat = some v) (hcap : 6 * (s.nch.toNat + 1) ≤ Config.capBits)
    (hq : s.pending = .command (encode (pushByte c)) :: rest) :
    step s = .next (s.pushed (bitsOf 6 v) 1 rest) := by
  rw [step_encode (pushByte_wellFormed c) hq, pushByte, exec, execPushc,
    checked_of_legal _ (by simp [hp]) (by simp [legalIn, hp]), setWidth_toNat, hv]
  exact if_neg (Nat.not_lt.2 hcap)

/-- PUSHC of a character outside the alphabet (40_armor.md R64). -/
theorem step_push_bad {s : State} {c : Byte} {rest : List Input} (hp : s.phase = .fill)
    (hv : sixbit c.toNat = none) (hq : s.pending = .command (encode (pushByte c)) :: rest) :
    step s = .next ({ s with pending := rest }.raise .invalidArmorCharacter (c.setWidth 32)) := by
  rw [step_encode (pushByte_wellFormed c) hq, pushByte, exec, execPushc,
    checked_of_legal _ (by simp [hp]) (by simp [legalIn, hp]), setWidth_toNat, hv,
    BitVec.setWidth_setWidth (by decide)]

/-- The bit string of a text whose first character is legal. -/
theorem armorBits_cons {c : Byte} {text : List Byte} {v : Nat} {b : Memory}
    (hv : sixbit c.toNat = some v) (hb : armorBits text = .ok b) :
    armorBits (c :: text) = .ok (bitsOf 6 v ++ b) := by
  rw [armorBits, hv, hb]
  rfl

/-- A text that starts with a character and has a bit string. -/
theorem armorBits_cons_ok {c : Byte} {text : List Byte} {b : Memory} (h : armorBits (c :: text) = .ok b) :
    ∃ v b', sixbit c.toNat = some v ∧ armorBits text = .ok b' ∧ b = bitsOf 6 v ++ b' := by
  cases hv : sixbit c.toNat with
  | none => simp [armorBits, hv] at h
  | some v =>
    cases hb : armorBits text with
    | error d => simp [armorBits, hv, hb, Except.map] at h
    | ok b' => exact ⟨v, b', rfl, rfl, Except.ok.inj (h.symm.trans (armorBits_cons hv hb))⟩

/-- Each legal character gives six bits. -/
theorem armorBits_length {text : List Byte} {b : Memory} (h : armorBits text = .ok b) :
    b.length = 6 * text.length := by
  induction text generalizing b with
  | nil =>
    cases h
    rfl
  | cons c text ih =>
    obtain ⟨v, b', -, hb, rfl⟩ := armorBits_cons_ok h
    rw [List.length_append, bitsOf_length, ih hb, List.length_cons]
    omega

/-- A text without a bit string is legal up to its first bad character (40_armor.md R62). -/
theorem armorBits_error {text : List Byte} {c : Byte} (h : armorBits text = .error c) :
    ∃ pre b post, text = pre ++ c :: post ∧ armorBits pre = .ok b ∧ sixbit c.toNat = none := by
  induction text with
  | nil => cases h
  | cons d text ih =>
    cases hv : sixbit d.toNat with
    | none =>
      rw [armorBits, hv] at h
      cases h
      exact ⟨[], [], text, rfl, rfl, hv⟩
    | some v =>
      cases hb : armorBits text with
      | ok b => cases h.symm.trans (armorBits_cons hv hb)
      | error e =>
        rw [armorBits, hv, hb] at h
        cases h
        obtain ⟨pre, b, post, rfl, hpre, hc⟩ := ih hb
        exact ⟨d :: pre, _, post, rfl, armorBits_cons hv hpre, hc⟩

/-- `legalPrefix` counts the characters before the first bad one. -/
theorem legalPrefix_append_bad {pre post : List Byte} {b : Memory} {c : Byte} (hpre : armorBits pre = .ok b)
    (hc : sixbit c.toNat = none) : legalPrefix (pre ++ c :: post) = pre.length := by
  induction pre generalizing b with
  | nil => simp [legalPrefix, hc]
  | cons d pre ih =>
    obtain ⟨v, b', hv, hpre, -⟩ := armorBits_cons_ok hpre
    have hrest := ih hpre
    unfold legalPrefix at hrest ⊢
    rw [List.cons_append, List.takeWhile_cons_of_pos (by simp [hv]), List.length_cons, hrest,
      List.length_cons]

/-- A legal text within the capacity is pushed, character by character. -/
theorem run_pushes {text : List Byte} {b : Memory} (hb : armorBits text = .ok b) {s : State}
    {rest : List Input} (hp : s.phase = .fill)
    (hcap : 6 * (s.nch.toNat + text.length) ≤ Config.capBits)
    (hq : s.pending = asInputs (text.map pushByte) ++ rest) :
    Host.Core.run core text.length s = .next (s.pushed b text.length rest) := by
  induction text generalizing s b with
  | nil =>
    cases hb
    obtain rfl : s.pending = rest := hq
    exact congrArg _ s.pushed_zero.symm
  | cons c text ih =>
    obtain ⟨v, b', hv, hrest, rfl⟩ := armorBits_cons_ok hb
    rw [List.length_cons] at hcap
    have hstep := step_push (rest := asInputs (text.map pushByte) ++ rest) hp hv (by omega) hq
    have hnch : (s.nch + BitVec.ofNat 16 1).toNat = s.nch.toNat + 1 := by
      have hbound := Config.capBits_bounds
      rw [BitVec.toNat_add, BitVec.toNat_ofNat]
      omega
    have hrun := ih hrest (s := s.pushed (bitsOf 6 v) 1 (asInputs (text.map pushByte) ++ rest)) hp
      (by rw [State.pushed, hnch]; omega) rfl
    rw [List.length_cons, run_succ _ hstep, hrun, State.pushed_pushed, Nat.add_comm 1]

/-! ## CLR and the characters -/

/-- The block after CLR and `n` accepted characters that gave the bits `b`. -/
def State.filled (s : State) (b : Memory) (n : Nat) (rest : List Input) : State :=
  s.cleared.respondOk.pushed b n rest

section
variable (s : State) (b : Memory) (n : Nat) (rest : List Input)

@[simp] theorem State.filled_phase : (s.filled b n rest).phase = .fill := rfl
@[simp] theorem State.filled_bits : (s.filled b n rest).bits = b := rfl

@[simp] theorem State.filled_responses :
    (s.filled b n rest).responses = s.responses ++ List.replicate (1 + n) (.ok 0) := by
  simp [State.filled, State.pushed, Nat.add_comm 1, List.replicate_succ]

/-- The counter does not wrap within the capacity. -/
theorem State.filled_nch_toNat (h : 6 * n ≤ Config.capBits) : (s.filled b n rest).nch.toNat = n := by
  have hbound := Config.capBits_bounds
  have hnch : (s.filled b n rest).nch = BitVec.ofNat 16 n := BitVec.zero_add _
  rw [hnch, BitVec.toNat_ofNat]
  omega

end

/-- CLR and a legal text within the capacity, from any state. -/
theorem run_clr_pushes {text : List Byte} {b : Memory} (hb : armorBits text = .ok b)
    (hcap : 6 * text.length ≤ Config.capBits) {s : State} {rest : List Input}
    (hq : s.pending = asInputs (.clr :: text.map pushByte) ++ rest) :
    Host.Core.run core (text.length + 1) s = .next (s.filled b text.length rest) := by
  rw [run_succ _ (step_clr hq)]
  exact run_pushes hb rfl (by simpa using hcap) rfl

/-! ## After the characters -/

/-- The block after SEAL has cut the buffer to `n` bits (40_armor.md R66). -/
def State.sealedAt (s : State) (n : Nat) (rest : List Input) : State :=
  { s with
    bits := s.bits.truncate n, len := BitVec.ofNat 16 n, pos := 0, phase := .ready, res := zext32 n
    pending := rest }.respondOk

theorem State.sealedAt_len_toNat (s : State) {n : Nat} (rest : List Input) (h : n < 65536) :
    (s.sealedAt n rest).len.toNat = n :=
  (BitVec.toNat_ofNat n 16).trans (Nat.mod_eq_of_lt h)

/-- The byte image of the sealed buffer is `Unarmor`'s (40_armor.md R62). -/
theorem State.sealedAt_image (s : State) {n : Nat} (rest : List Input) (h : n < 65536) :
    (s.sealedAt n rest).image = (bufferOf s.bits n).bytes := by
  rw [State.image, State.nbytes, s.sealedAt_len_toNat rest h]
  rfl

/-- SEAL of a legal fill count (40_armor.md R66). -/
theorem step_seal {s : State} {f : Operand} {rest : List Input} (hf : f.toNat < 8) (hp : s.phase = .fill)
    (ho : sealOperandOk f s.nch = true) (hq : s.pending = .command (encode (.sealf f)) :: rest) :
    step s = .next (s.sealedAt (6 * s.nch.toNat - f.toNat) rest) := by
  rw [step_encode ((wellFormed_iff (.sealf f)).2 hf) hq, exec, execSeal,
    checked_of_legal _ (by simp [hp]) (by simp [legalIn, hp])]
  exact if_pos ho

/-- SEAL of a fill count above 5 or above the data (60_exceptions.md R98). -/
theorem step_seal_bad {s : State} {f : Operand} {rest : List Input} (hf : f.toNat < 8)
    (hp : s.phase = .fill) (ho : sealOperandOk f s.nch = false)
    (hq : s.pending = .command (encode (.sealf f)) :: rest) :
    step s = .next ({ s with pending := rest }.raise .invalidOperand (commandInfo (.sealf f))) := by
  rw [step_encode ((wellFormed_iff (.sealf f)).2 hf) hq, exec, execSeal,
    checked_of_legal _ (by simp [hp]) (by simp [legalIn, hp])]
  exact if_neg (by simp [ho])

/-- The block in FAULT after it has only answered `n` words (60_exceptions.md R102). -/
def State.ignored (s : State) (n : Nat) (rest : List Input) : State :=
  { s with pending := rest, responses := s.responses ++ List.replicate n (.err s.err) }

/-- In FAULT commands other than CLR are only answered, one by one (60_exceptions.md R102). -/
theorem run_of_fault {cs : List Instr} (hcs : ∀ i ∈ cs, encode i ≠ 0) {s : State} {rest : List Input}
    (hp : s.phase = .fault) (hq : s.pending = asInputs cs ++ rest) :
    Host.Core.run core cs.length s = .next (s.ignored cs.length rest) := by
  induction cs generalizing s with
  | nil =>
    obtain rfl : s.pending = rest := hq
    simp [Host.Core.run, State.ignored]
  | cons i cs ih =>
    obtain ⟨hi, hcs⟩ := List.forall_mem_cons.1 hcs
    have hstep := step_of_fault (rest := asInputs cs ++ rest) hp hq hi
    have hrun := ih hcs (s := { s with pending := asInputs cs ++ rest }.respondErr) hp rfl
    rw [List.length_cons, run_succ _ hstep, hrun]
    simp [State.ignored, List.replicate_succ]

/-- The characters after the bad one, and SEAL, have words other than CLR's. -/
theorem encode_ne_zero_of_mem {text : List Byte} {f : Operand} (hf : f.toNat < 8) :
    ∀ i ∈ text.map pushByte ++ [.sealf f], encode i ≠ 0 := by
  intro i hi
  rcases List.mem_append.1 hi with hi | hi
  · obtain ⟨c, -, rfl⟩ := List.mem_map.1 hi
    exact encode_ne_zero (pushByte_wellFormed c) (by simp [pushByte])
  · obtain rfl := List.mem_singleton.1 hi
    exact encode_ne_zero ((wellFormed_iff _).2 hf) (by simp)

/-- The sequence of a text with a bad character: FAULT from that character on. -/
theorem run_unarmor_bad {pre post : List Byte} {b : Memory} {c : Byte} {f : Operand} {s : State}
    {rest : List Input} (hpre : armorBits pre = .ok b) (hc : sixbit c.toNat = none) (hf : f.toNat < 8)
    (hcap : 6 * pre.length ≤ Config.capBits)
    (hq : s.pending = asInputs (unarmorCommands (pre ++ c :: post) f) ++ rest) :
    Host.Core.run core (pre.length + 1 + (post.length + 1 + 1)) s =
      .next (((s.filled b pre.length rest).raise .invalidArmorCharacter (c.setWidth 32)).ignored
        (post.length + 1) rest) := by
  have hq' : s.pending = asInputs (.clr :: pre.map pushByte) ++ .command (encode (pushByte c)) ::
      (asInputs (post.map pushByte ++ [.sealf f]) ++ rest) := by
    rw [hq, unarmorCommands_eq]
    simp [asInputs]
  have hbad := step_push_bad (rest := asInputs (post.map pushByte ++ [.sealf f]) ++ rest)
    (s.filled_phase b pre.length _) hc rfl
  have hignored := run_of_fault (rest := rest) (encode_ne_zero_of_mem (text := post) hf)
    (State.raise_phase (s.filled b pre.length (asInputs (post.map pushByte ++ [.sealf f]) ++ rest))
      .invalidArmorCharacter (c.setWidth 32)) rfl
  rw [List.length_append, List.length_map, List.length_singleton] at hignored
  exact (run_add (run_clr_pushes hpre hcap hq')).trans ((run_succ _ hbad).trans hignored)

/-! ## The function `Unarmor` -/

theorem bufferOf_bits_length {m : Memory} {n : Nat} (h : n ≤ m.length) : (bufferOf m n).bits.length = n :=
  List.length_take_of_le h

theorem unarmor_of_error {text : List Byte} {c : Byte} (h : armorBits text = .error c) (f : Nat) :
    unarmor text f = .invalidArmorCharacter c := by
  rw [unarmor, h]

/-- `Unarmor`'s requirement on the fill count is SEAL's (40_armor.md R62, R66). -/
theorem unarmor_of_ok {text : List Byte} {b : Memory} (h : armorBits text = .ok b) {f : Operand}
    {nch : Counter} (hn : nch.toNat = text.length) :
    unarmor text f.toNat =
      if sealOperandOk f nch then .buffer (bufferOf b (6 * text.length - f.toNat)) else .noMeaning := by
  rw [unarmor, h, sealOperandOk, hn]
  simp

end Sys2Proof.Machine

namespace Sys2Proof
open Machine

/-- Settles O49, by the three outcomes of `Unarmor`. -/
theorem unarmorSequenceIsUnarmor : Obligations.UnarmorSequenceIsUnarmor := by
  intro text f (s : State) rest hf hcap hq
  cases hb : armorBits text with
  | error c =>
    obtain ⟨pre, b, post, rfl, hpre, hc⟩ := armorBits_error hb
    have hlen : (pre ++ c :: post).length = pre.length + (post.length + 1) := by simp
    have hrun := run_unarmor_bad hpre hc hf (by omega) hq
    have hsteps : pre.length + (post.length + 1) + 2 = pre.length + 1 + (post.length + 1 + 1) := by omega
    have hrest : pre.length + (post.length + 1) + 1 - pre.length = post.length + 1 + 1 := by omega
    rw [unarmor_of_error hb, legalPrefix_append_bad hpre hc, hlen, hsteps, hrest]
    refine ⟨_, hrun, rfl, rfl, rfl, rfl, ?_⟩
    simp [State.ignored, List.replicate_succ]
  | ok b =>
    rw [unarmorCommands_eq, asInputs_append, List.append_assoc] at hq
    have hfill := run_clr_pushes hb hcap hq
    have hnch := s.filled_nch_toNat b text.length (asInputs [.sealf f] ++ rest) hcap
    rw [unarmor_of_ok hb hnch]
    cases ho : sealOperandOk f (s.filled b text.length (asInputs [.sealf f] ++ rest)).nch with
    | false =>
      have hseal := step_seal_bad (rest := rest) hf (State.filled_phase ..) ho rfl
      exact ⟨_, (run_add hfill).trans (run_one hseal), rfl, rfl, rfl, by simp⟩
    | true =>
      have hseal := step_seal (rest := rest) hf (State.filled_phase ..) ho rfl
      have hlen : 6 * text.length - f.toNat < 65536 := by
        have hbound := Config.capBits_bounds
        omega
      have hbits := bufferOf_bits_length (m := b) (n := 6 * text.length - f.toNat)
        (by rw [armorBits_length hb]; omega)
      rw [hnch] at hseal
      refine ⟨_, (run_add hfill).trans (run_one hseal), rfl, rfl, rfl, rfl,
        State.sealedAt_len_toNat _ rest hlen, State.sealedAt_image _ rest hlen, hbits, ?_⟩
      simp [State.sealedAt, zext32, bufferOf]

end Sys2Proof
end

section
/-!
The armor commands, forwards (40_armor.md R64 to R68): what `exec` answers when a check of 60_exceptions.md R101
fails, and when PUSHC and SEAL complete.
-/

namespace Sys2Proof.Machine

variable {i : Instr} {s : State}

/-- Out of its phase a command raises SequenceError (60_exceptions.md R97). -/
theorem exec_of_illegal_phase (hp : s.phase ≠ .fault) (hl : legalIn i s.phase = false) :
    exec i s = .next (s.raise .sequenceError (commandInfo i)) := by
  cases i with
  | clr => cases hl
  | _ => exact checked_of_illegal _ hp hl

/-- In its phase, a command with an operand out of range raises InvalidOperand (60_exceptions.md R98). -/
theorem exec_of_illegal_operand (hp : s.phase ≠ .fault) (hl : legalIn i s.phase = true)
    (ho : operandLegal s i = false) : exec i s = .next (s.raise .invalidOperand (commandInfo i)) := by
  cases i with
  | clr | pushc c | rem | sixa v => cases ho
  | _ => exact (checked_of_legal _ hp hl).trans (if_neg (ne_true_of_eq_false ho))

/-- A character of the armor alphabet has a sixbit value (30_encoding.md R55). -/
theorem exists_sixbit_of_armorLegal {c : Nat} (h : armorLegal c) : ∃ v, sixbit c = some v :=
  Option.ne_none_iff_exists'.1 fun hnone => (sixbit_eq_none_iff c).1 hnone h

section
variable {c : Operand} {v : Nat} (hp : s.phase = .fill)

include hp

/-- PUSHC of a character outside the alphabet (R64). -/
theorem exec_pushc_bad (hv : sixbit c.toNat = none) :
    exec (.pushc c) s = .next (s.raise .invalidArmorCharacter (c.setWidth 32)) := by
  rw [exec, execPushc, checked_of_legal _ (by simp [hp]) (by simp [legalIn, hp]), hv]

/-- PUSHC of a legal character beyond the capacity (R65). -/
theorem exec_pushc_full (hv : sixbit c.toNat = some v) (hcap : Config.capBits < 6 * (s.nch.toNat + 1)) :
    exec (.pushc c) s = .next (s.raise .capacityExceeded (commandInfo (.pushc c))) := by
  rw [exec, execPushc, checked_of_legal _ (by simp [hp]) (by simp [legalIn, hp]), hv]
  exact if_pos hcap

/-- PUSHC of a legal character within the capacity completes, with the effect R64 states. -/
theorem exec_pushc_completes (hv : sixbit c.toNat = some v)
    (hcap : 6 * (s.nch.toNat + 1) ≤ Config.capBits) :
    ∃ t, exec (.pushc c) s = .next t ∧ FullEffect (.pushc c) s t := by
  refine ⟨_, ?_, Completes.fullEffect (i := .pushc c) rfl ⟨v, hv, hcap, rfl⟩⟩
  rw [exec, execPushc, checked_of_legal _ (by simp [hp]) (by simp [legalIn, hp]), hv]
  exact if_neg (Nat.not_lt.2 hcap)

/-- SEAL of a legal fill count completes (R66). -/
theorem exec_sealf_completes {f : Operand} (ho : sealOperandOk f s.nch = true) :
    exec (.sealf f) s = .next (s.sealedAt (6 * s.nch.toNat - f.toNat) s.pending) := by
  rw [exec, execSeal, checked_of_legal _ (by simp [hp]) (by simp [legalIn, hp])]
  exact if_pos ho

end

/-- RDB of a byte of the image completes, with the effect R68 states: the bits it shows exist. -/
theorem exec_rdb_completes {n : Operand} (hs : s.Inv) (hp : s.phase = .ready)
    (ho : rdbOperandOk n s.len = true) :
    ∃ t, exec (.rdb n) s = .next t ∧ FullEffect (.rdb n) s t := by
  obtain ⟨t, ht⟩ := exec_answers (.rdb n) hs
  have hc : Completes s t (.rdb n) :=
    plainRead_completes (.inl ⟨n, rfl⟩) (by simp [hp]) (by simp [legalIn, hp]) ho ht
  exact ⟨t, ht, hc.fullEffect ho⟩

/-- The byte image of the sealed buffer: bit `7-k` of byte `i` is bit `8i+k` of the buffer before SEAL, or 0 at
and past the cut (20_memory.md R31). -/
theorem State.sealedAt_image_getLsbD (s : State) {n i k : Nat} (rest : List Input) (hn : n < 65536)
    (hi : i < ceil8 n) (hk : k < 8) :
    ((s.sealedAt n rest).image.getD i 0).getLsbD (7 - k) =
      if 8 * i + k < n then s.bits.getD (8 * i + k) false else false := by
  have hbyte : (s.sealedAt n rest).image.getD i 0 = byteAt (s.bits.truncate n) n i := by
    rw [s.sealedAt_image rest hn, bufferOf, List.getD_eq_getElem?_getD, List.getElem?_map,
      List.getElem?_range hi]
    rfl
  rw [hbyte, byteAt_getLsbD _ _ _ _ hk, padBit]
  by_cases h : 8 * i + k < n
  · simp [h, Memory.truncate_getElem?]
  · simp [h]

/-- PUSHC and SEAL are legal in FILL only (10_state.md R13). -/
theorem phase_eq_fill_of_fills (hi : (∃ c, i = .pushc c) ∨ ∃ f, i = .sealf f)
    (hl : legalIn i s.phase = true) : s.phase = .fill := by
  rcases hi with ⟨c, rfl⟩ | ⟨f, rfl⟩ <;> simpa [legalIn] using hl

/-- A command that completes, other than PUSHC and SEAL, keeps the buffer and LEN (R70). -/
theorem Completes.buffer_eq {t : State} (h : Completes s t i)
    (hi : ¬((∃ c, i = .pushc c) ∨ ∃ f, i = .sealf f)) : t.bits = s.bits ∧ t.len = s.len := by
  cases i with
  | clr => exact h.elim
  | pushc c => exact absurd (.inl ⟨c, rfl⟩) hi
  | sealf f => exact absurd (.inr ⟨f, rfl⟩) hi
  | rdb n =>
    obtain ⟨-, rfl⟩ := h
    exact ⟨rfl, rfl⟩
  | takeu w | takes w | taket w =>
    obtain ⟨-, -, rfl⟩ := h
    exact ⟨rfl, rfl⟩
  | rem | sixa v =>
    cases h
    exact ⟨rfl, rfl⟩

/-- Past FILL, a step that clears nothing keeps the buffer and LEN (R70). -/
theorem step_buffer_eq {t : State} (hfill : s.phase ≠ .fill) (hc : ¬clearsNext s) (h : step s = .next t) :
    t.bits = s.bits ∧ t.len = s.len := by
  cases step_effect h with
  | idle | sticky | raises => exact ⟨rfl, rfl⟩
  | reset hq => exact absurd ⟨_, .inl hq⟩ hc
  | clr hq => exact absurd ⟨_, .inr hq⟩ hc
  | completes _ _ _ _ hl _ hcomp =>
    exact hcomp.buffer_eq fun hi => hfill (phase_eq_fill_of_fills hi hl)

/-- The byte image depends on BITS and LEN only (20_memory.md R31). -/
theorem State.image_congr {t : State} (hbits : t.bits = s.bits) (hlen : t.len = s.len) :
    t.image = s.image := by
  rw [State.image, State.image, State.nbytes, State.nbytes, hbits, hlen]

end Sys2Proof.Machine

namespace Sys2Proof
open Machine

/-- Settles O23, by the three checks PUSHC makes, in their order. -/
theorem pushcAppendsSixBits : Obligations.PushcAppendsSixBits := by
  refine fun c s => ⟨fun hp hc hcap => ?_, fun hp hc => ?_, fun hp hc hcap => ?_, fun hp => ?_⟩
  · obtain ⟨v, hv⟩ := exists_sixbit_of_armorLegal hc
    obtain ⟨t, ht, b, hlen, hval, rfl⟩ := exec_pushc_completes hp hv hcap
    exact ⟨b, hlen, hval, ht⟩
  · exact exec_pushc_bad hp ((sixbit_eq_none_iff _).2 hc)
  · obtain ⟨v, hv⟩ := exists_sixbit_of_armorLegal hc
    exact exec_pushc_full hp hv hcap
  · exact exec_of_illegal_phase (by simp [hp]) (by simp [legalIn, hp])

/-- Settles O24: SEAL completes when its operand is legal, and the byte image is the cut buffer's. -/
theorem sealDropsFillBitsAndOpensTheCursor : Obligations.SealDropsFillBitsAndOpensTheCursor := by
  intro f s hs
  refine ⟨fun hp hf hfn => ?_, fun hp hf => ?_, fun hp => ?_⟩
  · have hn : 6 * s.nch.toNat - f.toNat < 65536 := by
      have hchar := hs.characters
      have hbound := Config.capBits_bounds
      omega
    have hbits : 6 * s.nch.toNat - f.toNat ≤ s.bits.length := by
      rw [(hs.filling hp).1]
      exact Nat.sub_le ..
    refine ⟨_, exec_sealf_completes hp (by simp [sealOperandOk, hf, hfn]), rfl,
      s.sealedAt_len_toNat s.pending hn, List.length_take_of_le hbits, ?_,
      fun i hi k hk => s.sealedAt_image_getLsbD s.pending hn hi hk⟩
    rw [s.sealedAt_image s.pending hn]
    simp [bufferOf, ceil8]
  · refine exec_of_illegal_operand (by simp [hp]) (by simp [legalIn, hp]) ?_
    simp [operandLegal, sealOperandOk]
    omega
  · exact exec_of_illegal_phase (by simp [hp]) (by simp [legalIn, hp])

/-- Settles O25: RDB completes exactly on the bytes of the image. -/
theorem rdbReturnsTheImageByte : Obligations.RdbReturnsTheImageByte := by
  intro i s hs
  refine ⟨fun hp hi => ?_, fun hp hi => ?_, fun hp => ?_⟩
  · obtain ⟨t, ht, b, hb, rfl⟩ := exec_rdb_completes hs hp (decide_eq_true hi)
    exact ⟨b, hb, ht⟩
  · exact exec_of_illegal_operand (by simp [hp]) (by simp [legalIn, hp])
      (decide_eq_false (Nat.not_lt.2 hi))
  · exact exec_of_illegal_phase (by simp [hp]) (by simp [legalIn, hp])

/-- Settles O40: only PUSHC and SEAL write the buffer, and they complete in FILL only. -/
theorem bufferIsImmutableOnceSealed : Obligations.BufferIsImmutableOnceSealed := by
  refine ⟨fun s t hfill hc h => ?_, fun i s hp hi => ?_, fun i w s t hi h ht => ?_⟩
  · obtain ⟨hbits, hlen⟩ := step_buffer_eq hfill hc h
    exact ⟨hbits, hlen, State.image_congr hbits hlen⟩
  · have hl : legalIn i s.phase = false :=
      Bool.eq_false_iff.2 fun hl => by cases hp.symm.trans (phase_eq_fill_of_fills hi hl)
    exact ⟨_, exec_of_illegal_phase (by simp [hp]) hl, rfl, rfl⟩
  · have hclr : i ≠ .clr := by rcases hi with rfl | rfl | rfl <;> simp
    obtain ⟨-, -, -, hcomp⟩ := exec_completes hclr h ht
    rcases hi with rfl | rfl | rfl
    case inl | inr.inl =>
      obtain ⟨-, -, rfl⟩ := hcomp
      rfl
    case inr.inr =>
      obtain ⟨-, -, rfl⟩ := hcomp
      rw [if_pos rfl, if_pos rfl]
      rfl

end Sys2Proof
end

section
/-!
CLR (40_armor.md R63, R71): it gives the reset state, and the responses given before a step do not influence what
the step does (`step_precededBy`), so nothing of the state before CLR is left.
-/

namespace Sys2Proof

/-- A word with the opcode of CLR and a non-zero operand is no command (30_encoding.md R47). -/
theorem decode_of_clr_operand {arg : Operand} (h : arg ≠ 0) : ∃ e, decode (0#4 ++ arg) = .error e := by
  cases hd : decode (0#4 ++ arg) with
  | error e => exact ⟨e, rfl⟩
  | ok i =>
    obtain ⟨hop, harg⟩ := decode_fields hd
    rw [opField_append] at hop
    rw [argField_append] at harg
    cases i with
    | clr => exact absurd harg.symm h
    | _ => cases hop

end Sys2Proof

namespace Sys2Proof.Machine

/-- The state with other responses before the ones it has. -/
def State.precededBy (s : State) (r : List Response) : State := { s with responses := r ++ s.responses }

/-- The outcome with a function applied to its next state. -/
def mapNext (g : State → State) : Result → Result
  | .next s => .next (g s)
  | .fault e => .fault e
  | .refused e => .refused e

/-- An outcome with a next state comes from one. -/
theorem eq_next_of_mapNext {g : State → State} {o : Result} {t : State} (h : mapNext g o = .next t) :
    ∃ u, o = .next u ∧ t = g u := by
  cases o with
  | next u => exact ⟨u, rfl, (Host.Outcome.next.inj h).symm⟩
  | fault e | refused e => cases h

section
variable {s u v : State} {r : List Response}

/-! ## The shared operations -/

theorem State.respondOk_of_precededBy (h : v = u.precededBy r) :
    v.respondOk = u.respondOk.precededBy r := by
  subst h
  simp [State.precededBy, State.respondOk]

theorem State.respondText_of_precededBy (h : v = u.precededBy r) :
    v.respondText = u.respondText.precededBy r := by
  subst h
  simp [State.precededBy, State.respondText, State.text]

theorem State.respondErr_of_precededBy (h : v = u.precededBy r) :
    v.respondErr = u.respondErr.precededBy r := by
  subst h
  simp [State.precededBy, State.respondErr]

theorem next_respondOk_of_precededBy (h : v = u.precededBy r) :
    (.next v.respondOk : Result) = mapNext (·.precededBy r) (.next u.respondOk) :=
  congrArg Host.Outcome.next (State.respondOk_of_precededBy h)

theorem next_respondErr_of_precededBy (h : v = u.precededBy r) :
    (.next v.respondErr : Result) = mapNext (·.precededBy r) (.next u.respondErr) :=
  congrArg Host.Outcome.next (State.respondErr_of_precededBy h)

theorem next_raise_precededBy (f : FaultCode) (info : Word) :
    (.next ((s.precededBy r).raise f info) : Result) = mapNext (·.precededBy r) (.next (s.raise f info)) :=
  next_respondErr_of_precededBy rfl

variable (r)

theorem ite_mapNext {p : Prop} [Decidable p] {g : State → State} {a a' b b' : Result}
    (ha : a' = mapNext g a) (hb : b' = mapNext g b) :
    (if p then a' else b') = mapNext g (if p then a else b) := by
  rw [apply_ite (mapNext g), ha, hb]

theorem checked_precededBy {i : Instr} {body body' : Result}
    (h : body' = mapNext (·.precededBy r) body) :
    checked i (s.precededBy r) body' = mapNext (·.precededBy r) (checked i s body) :=
  ite_mapNext (next_respondErr_of_precededBy rfl) (ite_mapNext h (next_raise_precededBy ..))

theorem withOperand_precededBy {i : Instr} {legal : Bool} {body body' : Result}
    (h : body' = mapNext (·.precededBy r) body) :
    withOperand i legal (s.precededBy r) body' = mapNext (·.precededBy r) (withOperand i legal s body) :=
  ite_mapNext h (next_raise_precededBy ..)

theorem illegalCommand_precededBy (w : CommandWord) (s : State) :
    illegalCommand w (s.precededBy r) = mapNext (·.precededBy r) (illegalCommand w s) :=
  ite_mapNext (next_respondErr_of_precededBy rfl) (next_raise_precededBy ..)

theorem take_precededBy {i : Instr} {w : Operand} {legal : Bool} {finish : State → State} {s : State}
    (h : finish (s.precededBy r) = (finish s).precededBy r) :
    take i w legal finish (s.precededBy r) = mapNext (·.precededBy r) (take i w legal finish s) :=
  checked_precededBy r <| withOperand_precededBy r <|
    ite_mapNext (next_raise_precededBy ..)
      (ite_mapNext (congrArg (fun t => Host.Outcome.next (t.advance w.toNat)) h) rfl)

/-! ## Commands, steps and runs -/

/-- A command does not read the responses given before. -/
theorem exec_precededBy (i : Instr) (s : State) :
    exec i (s.precededBy r) = mapNext (·.precededBy r) (exec i s) := by
  cases i with
  | clr => exact next_respondOk_of_precededBy rfl
  | pushc c =>
    refine checked_precededBy r ?_
    cases sixbit c.toNat with
    | none => exact next_raise_precededBy ..
    | some v => exact ite_mapNext (next_raise_precededBy ..) (next_respondOk_of_precededBy rfl)
  | sealf f => exact checked_precededBy r (withOperand_precededBy r (next_respondOk_of_precededBy rfl))
  | rdb n =>
    refine checked_precededBy r (withOperand_precededBy r ?_)
    have hread : (s.precededBy r).readByte n.toNat = s.readByte n.toNat := rfl
    rw [hread]
    cases s.readByte n.toNat with
    | none => rfl
    | some b => exact next_respondOk_of_precededBy rfl
  | rem | sixa v => exact checked_precededBy r (next_respondOk_of_precededBy rfl)
  | takeu w | takes w =>
    simp only [exec, execTakeu, execTakes]
    exact take_precededBy r (State.respondOk_of_precededBy rfl)
  | taket w =>
    simp only [exec, execTaket]
    exact take_precededBy r (State.respondText_of_precededBy rfl)

/-- A step does not read the responses given before (log entry 3). -/
theorem step_precededBy (s : State) : step (s.precededBy r) = mapNext (·.precededBy r) (step s) := by
  match hq : s.pending with
  | [] => rw [step_nil hq, step_nil (s := s.precededBy r) hq, mapNext]
  | .reset :: rest =>
    rw [step_reset hq, step_reset (s := s.precededBy r) hq]
    rfl
  | .command w :: rest =>
    rw [step_command hq, step_command (s := s.precededBy r) hq]
    cases decode w with
    | ok i => exact exec_precededBy r i { s with pending := rest }
    | error e => exact illegalCommand_precededBy r w { s with pending := rest }

/-- A run whose first step stops with a fault stops with it. -/
theorem run_of_step_fault (n : Nat) {s : State} {e : Fault} (h : step s = .fault e) :
    Host.Core.run core (n + 1) s = .fault e := by
  simp only [Host.Core.run, show core.step s = .fault e from h]

/-- A run whose first step is refused is refused. -/
theorem run_of_step_refused (n : Nat) {s : State} {e : Refusal} (h : step s = .refused e) :
    Host.Core.run core (n + 1) s = .refused e := by
  simp only [Host.Core.run, show core.step s = .refused e from h]

/-- A run does not read the responses given before. -/
theorem run_precededBy (n : Nat) (s : State) : Host.Core.run core n (s.precededBy r) =
    mapNext (·.precededBy r) (Host.Core.run core n s) := by
  induction n generalizing s with
  | zero => rfl
  | succ n ih =>
    have hstep := step_precededBy r s
    cases hs : step s with
    | next u =>
      rw [hs] at hstep
      rw [run_succ n hs, run_succ n hstep, ih u]
    | fault e =>
      rw [hs] at hstep
      exact (run_of_step_fault n hstep).trans (congrArg (mapNext _) (run_of_step_fault n hs).symm)
    | refused e =>
      rw [hs] at hstep
      exact (run_of_step_refused n hstep).trans (congrArg (mapNext _) (run_of_step_refused n hs).symm)

end

/-- CLR's step: the reset state with what the client is still to send, after the earlier responses (R63). -/
theorem step_clr_eq_precededBy {s : State} {rest : List Input} (h : s.pending = .command 0 :: rest) :
    step s = .next ({ State.reset with pending := rest }.respondOk.precededBy s.responses) :=
  step_clr h

end Sys2Proof.Machine

namespace Sys2Proof
open Machine

/-- Settles O10: a cleared state is the reset state, and CLR has one word. -/
theorem clrRestoresTheResetState : Obligations.ClrRestoresTheResetState := by
  refine ⟨fun _ => rfl, (decode_eq_clr_iff 0).2 rfl, fun arg harg => ⟨decode_of_clr_operand harg, ?_⟩⟩
  intro s rest hp hq
  refine step_of_fault hp hq fun hz => harg ?_
  rw [← argField_append 0#4 arg, hz]
  decide

/-- Settles O52: after CLR both runs are the run from the reset state, each after its own responses. -/
theorem clrForgetsEarlierMessages : Obligations.ClrForgetsEarlierMessages := by
  intro s1 s2 rest hq1 hq2 n t1 h
  rw [run_succ n (step_clr_eq_precededBy hq1), run_precededBy] at h
  obtain ⟨u, hu, rfl⟩ := eq_next_of_mapNext h
  refine ⟨u.responses, rfl, ?_⟩
  rw [run_succ n (step_clr_eq_precededBy hq2), run_precededBy, hu]
  rfl

end Sys2Proof
end

section
/-!
The UNARMOR sequence of a text beyond the capacity (40_armor.md R65, R69, log entry 17): the characters that fit are
pushed, the next one raises CapacityExceeded, and FAULT ignores the words after it.
-/

namespace Sys2Proof.Machine

/-- A text splits at a character before its first bad one, into a legal text, a legal character and the rest. -/
theorem exists_split_of_lt_legalPrefix {text : List Byte} {n : Nat} (h : n < legalPrefix text) :
    ∃ pre c post b v, text = pre ++ c :: post ∧ pre.length = n ∧ armorBits pre = .ok b ∧
      sixbit c.toNat = some v := by
  induction text generalizing n with
  | nil => cases h
  | cons d text ih =>
    cases hv : sixbit d.toNat with
    | none => simp [legalPrefix, hv] at h
    | some v =>
      have hcons : legalPrefix (d :: text) = legalPrefix text + 1 := by
        simp [legalPrefix, List.takeWhile_cons_of_pos, hv]
      cases n with
      | zero => exact ⟨[], d, text, [], v, rfl, rfl, rfl, hv⟩
      | succ n =>
        obtain ⟨pre, c, post, b, v', rfl, rfl, hpre, hc⟩ := ih (n := n) (by omega)
        exact ⟨d :: pre, c, post, _, v', rfl, rfl, armorBits_cons hv hpre, hc⟩

/-- PUSHC of a legal character beyond the capacity (40_armor.md R65). -/
theorem step_push_full {s : State} {c : Byte} {v : Nat} {rest : List Input} (hp : s.phase = .fill)
    (hv : sixbit c.toNat = some v) (hcap : Config.capBits < 6 * (s.nch.toNat + 1))
    (hq : s.pending = .command (encode (pushByte c)) :: rest) :
    step s = .next ({ s with pending := rest }.raise .capacityExceeded (commandInfo (pushByte c))) := by
  rw [step_encode (pushByte_wellFormed c) hq]
  exact exec_pushc_full (s := { s with pending := rest }) hp (by rwa [setWidth_toNat]) hcap

/-- The sequence of a text of more legal characters than fit: FAULT from the first that does not fit on. -/
theorem run_unarmor_full {pre post : List Byte} {b : Memory} {c : Byte} {v : Nat} {f : Operand} {s : State}
    {rest : List Input} (hpre : armorBits pre = .ok b) (hc : sixbit c.toNat = some v) (hf : f.toNat < 8)
    (hcap : 6 * pre.length ≤ Config.capBits) (hfull : Config.capBits < 6 * (pre.length + 1))
    (hq : s.pending = asInputs (unarmorCommands (pre ++ c :: post) f) ++ rest) :
    Host.Core.run core (pre.length + 1 + (post.length + 1 + 1)) s =
      .next (((s.filled b pre.length rest).raise .capacityExceeded (commandInfo (pushByte c))).ignored
        (post.length + 1) rest) := by
  let later := asInputs (post.map pushByte ++ [.sealf f]) ++ rest
  have hq' : s.pending = asInputs (.clr :: pre.map pushByte) ++
      .command (encode (pushByte c)) :: later := by
    rw [hq, unarmorCommands_eq]
    simp [later, asInputs]
  have hstep := step_push_full (rest := later) (s.filled_phase b pre.length _) hc
    (by rwa [s.filled_nch_toNat b _ _ hcap]) rfl
  have hignored := run_of_fault (rest := rest) (encode_ne_zero_of_mem (text := post) hf)
    (State.raise_phase (s.filled b pre.length later) .capacityExceeded (commandInfo (pushByte c))) rfl
  rw [List.length_append, List.length_map, List.length_singleton] at hignored
  exact (run_add (run_clr_pushes hpre hcap hq')).trans ((run_succ _ hstep).trans hignored)

end Sys2Proof.Machine

namespace Sys2Proof
open Machine

/-- Settles O50: the first `CAP_BITS / 6` characters fill the buffer, and the next does not fit. -/
theorem unarmorBeyondTheCapacity : Obligations.UnarmorBeyondTheCapacity := by
  intro text f (s : State) rest hf _ hlegal hq
  obtain ⟨pre, c, post, b, v, rfl, hlen, hpre, hc⟩ := exists_split_of_lt_legalPrefix hlegal
  have hbound := Config.capBits_bounds
  have hcap : 6 * pre.length ≤ Config.capBits := by omega
  have hrun := run_unarmor_full hpre hc hf hcap (by omega) hq
  have hsteps : (pre ++ c :: post).length + 2 = pre.length + 1 + (post.length + 1 + 1) := by
    simp
    omega
  rw [hsteps]
  exact ⟨_, hrun, rfl, rfl, (s.filled_nch_toNat b pre.length rest hcap).trans hlen⟩

end Sys2Proof
end

section
/-!
The bit cursor, forwards (41_cursor.md R73 to R82): what REM and a take answer in READY, and where a take that
completes leaves the cursor.
-/

namespace Sys2Proof.Machine

variable {i : Instr} {w : Operand} {s t : State}

/-- REM in READY completes (R73). -/
theorem exec_rem (hp : s.phase = .ready) : exec .rem s = .next (s.setRes (zext32 s.remaining)).respondOk :=
  checked_of_legal _ (by simp [hp]) (by simp [legalIn, hp])

/-- The 32-bit word that REM answers holds the whole count (R73). -/
theorem zext32_remaining_toNat (s : State) : (zext32 s.remaining).toNat = s.remaining := by
  have hlen := s.len.isLt
  rw [zext32, BitVec.toNat_ofNat, State.remaining]
  omega

/-- The value of a field is below `2^w` on bits that exist (R76). -/
theorem fieldValue_lt {m : Memory} {a n : Nat} (h : a + n ≤ m.length) : fieldValue m a n < 2 ^ n :=
  extract_eq_fieldValue m a n h ▸ extract_lt m a n

/-- TAKES takes 1 to 32 bits (R75). -/
theorem operandLegal_takes_iff (s : State) (w : Operand) :
    operandLegal s (.takes w) = true ↔ 1 ≤ w.toNat ∧ w.toNat ≤ 32 := by
  simp [operandLegal, takesOperandOk]

/-- The width of a spare read clamped to REM's answer is the lesser of the declared width and the bits that remain
(R82). -/
theorem clampedWidth_toNat {declared : Nat} (hd : declared ≤ 32) (s : State) :
    (BitVec.ofNat 12 (clampedWidth declared (zext32 s.remaining).toNat)).toNat = min declared s.remaining := by
  rw [clampedWidth, zext32_remaining_toNat, BitVec.toNat_ofNat]
  omega

/-- A take that completes moves the cursor by its width, within the remaining bits (R78). -/
theorem Completes.take_pos (h : Completes s t i) (hi : IsTake i w) (hcur : s.pos.toNat ≤ s.len.toNat) :
    w.toNat ≤ s.remaining ∧ t.pos.toNat = s.pos.toNat + w.toNat := by
  rcases hi with rfl | rfl | rfl
  all_goals
    obtain ⟨hw, -, rfl⟩ := h
    exact ⟨hw, State.advance_pos_toNat hcur hw⟩

section
variable (hi : IsTake i w)

include hi

theorem IsTake.ne_clr : i ≠ .clr := by rcases hi with rfl | rfl | rfl <;> simp

/-- A take is legal in READY (R74, R75, 42_text.md R84). -/
theorem IsTake.legalIn_ready (hp : s.phase = .ready) : legalIn i s.phase = true := by
  rcases hi with rfl | rfl | rfl <;> simp [legalIn, hp]

/-- A take is the shared operation `take`, with its operand check and a way to write its results. -/
theorem IsTake.exec_eq_take (s : State) : ∃ finish, exec i s = take i w (operandLegal s i) finish s ∧
    (w.toNat ≤ s.remaining → s.pos.toNat + w.toNat ≤ s.bits.length →
      Completes s ((finish s).advance w.toNat) i) := by
  rcases hi with rfl | rfl | rfl
  all_goals
    simp only [exec, execTakeu, execTakes, execTaket]
    exact ⟨_, rfl, fun hw hb => ⟨hw, hb, rfl⟩⟩

variable (hp : s.phase = .ready) (ho : operandLegal s i = true)

include hp ho

/-- A take of more bits than remain raises InsufficientBits (R79, 60_exceptions.md R95). -/
theorem exec_take_insufficient (hw : s.remaining < w.toNat) :
    exec i s = .next (s.raise .insufficientBits (w.setWidth 32)) := by
  obtain ⟨finish, hexec, -⟩ := hi.exec_eq_take s
  rw [hexec, take, checked_of_legal _ (by simp [hp]) (hi.legalIn_ready hp), withOperand, if_pos ho, if_pos hw]

/-- A take of at most the bits that remain completes (R79). -/
theorem exec_take_completes (hs : s.Inv) (hw : w.toNat ≤ s.remaining) :
    ∃ t, exec i s = .next t ∧ Completes s t i := by
  obtain ⟨finish, hexec, hdone⟩ := hi.exec_eq_take s
  have hbits := hs.remaining_exist hp hw
  exact ⟨_, hexec.trans (take_completes finish (by simp [hp]) (hi.legalIn_ready hp) ho hw hbits),
    hdone hw hbits⟩

end

end Sys2Proof.Machine

namespace Sys2Proof
open Machine

/-- Settles O19, by the check of the remaining bits, which a width of 0 passes. -/
theorem insufficientBitsExactly : Obligations.InsufficientBitsExactly := by
  intro i w s hi hs hp ho
  have completes (hw : w.toNat ≤ s.remaining) : ∃ t, exec i s = .next t ∧ t.phase = .ready := by
    obtain ⟨t, ht, hc⟩ := exec_take_completes hi hp ho hs hw
    obtain ⟨-, -, -, -, hphase, -⟩ := hc.take_frame hi
    exact ⟨t, ht, hphase.trans hp⟩
  exact ⟨exec_take_insufficient hi hp ho, completes, fun hw => completes (by simp [hw])⟩

/-- Settles O26: the count fits RES, and REM is legal in READY only. -/
theorem remCountsUnconsumedBits : Obligations.RemCountsUnconsumedBits :=
  fun s _ => ⟨fun hp => ⟨_, zext32_remaining_toNat s, exec_rem hp⟩,
    fun hp => exec_of_illegal_phase (by simp [hp]) (by simp [legalIn, hp])⟩

/-- Settles O27: TAKEU by the checks it makes, and the bound of a field. -/
theorem takeuReadsBigEndian : Obligations.TakeuReadsBigEndian := by
  intro w s hs
  refine ⟨fun hp hw hr => ?_, fun hp hw => ?_, fun hp hw hr => ?_, fun hp => ?_⟩
  · have ho : operandLegal s (.takeu w) = true := decide_eq_true hw
    obtain ⟨t, ht, hc⟩ := exec_take_completes (.inl rfl) hp ho hs hr
    obtain ⟨r, hvalue, rfl⟩ := hc.fullEffect ho
    exact ⟨fieldValue_lt (hs.remaining_exist hp hr), r, hvalue, ht⟩
  · exact exec_of_illegal_operand (by simp [hp]) (by simp [legalIn, hp]) (decide_eq_false (Nat.not_le.2 hw))
  · exact exec_take_insufficient (.inl rfl) hp (decide_eq_true hw) hr
  · exact exec_of_illegal_phase (by simp [hp]) (by simp [legalIn, hp])

/-- Settles O28: TAKES by the checks it makes; its width is at least 1. -/
theorem takesReadsTwosComplement : Obligations.TakesReadsTwosComplement := by
  intro w s hs
  have hlegal := operandLegal_takes_iff s w
  refine ⟨fun hp h1 h32 hr => ?_, fun hp hw => ?_, fun hp h1 h32 hr => ?_, fun hp => ?_⟩
  · have ho := hlegal.2 ⟨h1, h32⟩
    obtain ⟨t, ht, hc⟩ := exec_take_completes (.inr (.inl rfl)) hp ho hs hr
    obtain ⟨r, hvalue, rfl⟩ := hc.fullEffect ho
    exact ⟨r, hvalue, ht⟩
  · refine exec_of_illegal_operand (by simp [hp]) (by simp [legalIn, hp])
      (Bool.eq_false_iff.2 fun ho => ?_)
    obtain ⟨h1, h32⟩ := hlegal.1 ho
    omega
  · exact exec_take_insufficient (.inr (.inl rfl)) hp (hlegal.2 ⟨h1, h32⟩) hr
  · exact exec_of_illegal_phase (by simp [hp]) (by simp [legalIn, hp])

/-- Settles O29: the two-part cursor is POS by bytes and bits, and a take that completes stays within LEN. -/
theorem takeAdvancesTheCursor : Obligations.TakeAdvancesTheCursor := by
  intro i w s t hi hs h ht
  obtain ⟨-, -, -, hc⟩ := exec_completes hi.ne_clr h ht
  obtain ⟨hw, hpos⟩ := hc.take_pos hi hs.cursor
  obtain ⟨-, -, hlen, -⟩ := hc.take_frame hi
  have hcur := hs.cursor
  rw [State.remaining] at hw
  refine ⟨hpos, ?_⟩
  simp only [State.curByte, State.curBit, hpos, hlen]
  omega

/-- Settles O31: REM answers the exact count and leaves what the take reads, so the clamped width is legal and
within the remaining bits. -/
theorem clampedSpareReadCompletes : Obligations.ClampedSpareReadCompletes := by
  intro declared s hs hp hd
  have hw := clampedWidth_toNat hd s
  have hinv := (hs.setRes (zext32 s.remaining)).respondOk
  obtain ⟨u, hu, hc⟩ := exec_take_completes (s := (s.setRes (zext32 s.remaining)).respondOk) (.inl rfl) hp
    (decide_eq_true (hw.trans_le ((min_le_left ..).trans hd))) hinv (hw.trans_le (min_le_right ..))
  obtain ⟨-, hpos⟩ := hc.take_pos (.inl rfl) hs.cursor
  obtain ⟨-, -, -, -, hphase, -⟩ := hc.take_frame (.inl rfl)
  exact ⟨_, _, u, exec_rem hp, rfl, hu, hphase.trans hp, hpos.trans (congrArg _ hw)⟩

end Sys2Proof
end

section
/-!
TAKET, forwards (42_text.md R83 to R85), and the way back of R89: the armor of a text holds one sixbit group per
character, UNARMOR builds the buffer of these groups, and TAKET maps each group to its character.
-/

namespace Sys2Proof.Machine

/-- TAKET takes a multiple of 6 of at most 252 bits (42_text.md R84). -/
theorem operandLegal_taket_iff (s : State) (w : Operand) :
    operandLegal s (.taket w) = true ↔ w.toNat % 6 = 0 ∧ w.toNat ≤ 252 := by
  simp [operandLegal, taketOperandOk]

/-! ## Groups -/

/-- A field after the first part of a concatenation is a field of the second part. -/
theorem extract_append_right (p m : Memory) (a w : Nat) :
    extract (p ++ m) (p.length + a) w = extract m a w := by
  rw [extract, slice, List.drop_length_add_append, extract, slice]

/-- The groups after the first part of a concatenation are the groups of the second part. -/
theorem groups_append_right (p m : Memory) (a n : Nat) :
    groups (p ++ m) (p.length + a) n = groups m a n := by
  induction n generalizing a with
  | zero => rfl
  | succ n ih => rw [groups, extract_append_right, Nat.add_assoc, ih, groups]

/-- The first group of a string that starts with a sixbit value (00_scope.md R7). -/
theorem extract_bitsOf_append {v : Nat} (hv : v < 64) (m : Memory) : extract (bitsOf 6 v ++ m) 0 6 = v := by
  rw [extract, slice, List.drop_zero, List.take_left' (bitsOf_length 6 v), val_bitsOf]
  exact Nat.mod_eq_of_lt hv

/-- The groups of the string made of sixbit values are these values (42_text.md R83). -/
theorem groups_flatMap_bitsOf {vs : List Nat} (h : ∀ v ∈ vs, v < 64) :
    groups (vs.flatMap (bitsOf 6)) 0 vs.length = vs := by
  induction vs with
  | nil => rfl
  | cons v vs ih =>
    obtain ⟨hv, hvs⟩ := List.forall_mem_cons.1 h
    have hrest := groups_append_right (bitsOf 6 v) (vs.flatMap (bitsOf 6)) 0 vs.length
    rw [bitsOf_length, ih hvs] at hrest
    rw [List.flatMap_cons, List.length_cons, groups, extract_bitsOf_append hv]
    exact congrArg (v :: ·) hrest

/-! ## The armor of a text -/

/-- The sixbit values of a text's characters (42_text.md R89). -/
def sixbitValues (text : List Byte) : List Nat := text.map fun c => ascii6Inverse c.toNat

/-- A character of 32 to 95 has a sixbit value below 64, and is that value's character (30_encoding.md R57). -/
theorem ascii6Inverse_of_range {c : Nat} (h : 32 ≤ c ∧ c ≤ 95) :
    ascii6Inverse c < 64 ∧ ascii6 (ascii6Inverse c) = c :=
  (ascii6_eq_iff _ c).2 ⟨h, rfl⟩

/-- The armor character of a sixbit value has that value (30_encoding.md R55). -/
theorem sixbit_armorCharacter {v : Nat} (hv : v < 64) :
    sixbit (BitVec.ofNat 8 (sixbitInverse v)).toNat = some v := by
  refine (sixbit_eq_some_iff _ v).2 ⟨hv, (BitVec.toNat_ofNat ..).trans (Nat.mod_eq_of_lt ?_)⟩
  unfold sixbitInverse
  split <;> omega

section
variable {text : List Byte} (h : ∀ c ∈ text, 32 ≤ c.toNat ∧ c.toNat ≤ 95)

include h

/-- The armor of a text is legal and holds the text's sixbit values (42_text.md R89). -/
theorem armorBits_armorOf : armorBits (armorOf text) = .ok ((sixbitValues text).flatMap (bitsOf 6)) := by
  induction text with
  | nil => rfl
  | cons c text ih =>
    obtain ⟨hc, htext⟩ := List.forall_mem_cons.1 h
    exact armorBits_cons (sixbit_armorCharacter (ascii6Inverse_of_range hc).1) (ih htext)

/-- The armor of a text decodes to the text without its trailing `'@'` (42_text.md R83, R85, R89). -/
theorem decodeText_sixbitValues :
    decodeText ((sixbitValues text).flatMap (bitsOf 6)) 0 (6 * text.length) =
      text.rdropWhile (· == 64) := by
  have hlt : ∀ v ∈ sixbitValues text, v < 64 :=
    List.forall_mem_map.2 fun c hc => (ascii6Inverse_of_range (h c hc)).1
  have hgroups := groups_flatMap_bitsOf hlt
  rw [sixbitValues, List.length_map, ← sixbitValues] at hgroups
  have hmap : (sixbitValues text).map (fun g => BitVec.ofNat 8 (ascii6 g)) = text := by
    rw [sixbitValues, List.map_map]
    refine (List.map_congr_left fun c hc => ?_).trans (List.map_id text)
    rw [Function.comp_apply, (ascii6Inverse_of_range (h c hc)).2, BitVec.ofNat_toNat, BitVec.setWidth_eq, id]
  rw [decodeText, Nat.mul_div_cancel_left _ (by decide), hgroups, hmap]
  rfl

end

/-! ## The sequence -/

/-- A run that starts with CLR ends in a state that meets the invariants, wherever it starts. -/
theorem inv_of_run_clr {n : Nat} {s t : State} {rest : List Input} (hq : s.pending = .command 0 :: rest)
    (h : Host.Core.run core (n + 1) s = .next t) : t.Inv := by
  rw [run_succ n (step_clr hq)] at h
  obtain ⟨u, hu, hinv⟩ := run_answers n (State.cleared_inv { s with pending := rest }).respondOk
  cases hu.symm.trans h
  exact hinv

/-- UNARMOR of a legal text within the capacity, with no fill bits, from any state (40_armor.md R69). -/
theorem run_unarmor_whole {text : List Byte} {b : Memory} (hb : armorBits text = .ok b)
    (hcap : 6 * text.length ≤ Config.capBits) {s : State} {rest : List Input}
    (hq : s.pending = asInputs (unarmorCommands text 0) ++ rest) :
    ∃ u : State, Host.Core.run core (text.length + 2) s = .next u ∧ u.Inv ∧ u.phase = .ready ∧
      u.bits = b ∧ u.pos = 0 ∧ u.len.toNat = 6 * text.length ∧ u.pending = rest := by
  rw [unarmorCommands_eq, asInputs_append, List.append_assoc] at hq
  have hfill := run_clr_pushes hb hcap hq
  have hnch := s.filled_nch_toNat b text.length (asInputs [.sealf 0] ++ rest) hcap
  have hseal := step_seal (rest := rest) (by decide)
    (s.filled_phase b text.length (asInputs [.sealf 0] ++ rest)) (by simp [sealOperandOk]) rfl
  have hrun := (run_add hfill).trans (run_one hseal)
  have hbound := Config.capBits_bounds
  rw [hnch] at hrun
  exact ⟨_, hrun, inv_of_run_clr hq hrun, rfl, List.take_of_length_le (armorBits_length hb).le, rfl,
    State.sealedAt_len_toNat _ rest ((Nat.sub_le ..).trans_lt (by omega)), rfl⟩

/-- The step on a legal TAKET of at most the bits that remain completes (R84). -/
theorem step_taket_completes {s : State} {w : Operand} {rest : List Input} (hs : s.Inv) (hp : s.phase = .ready)
    (ho : operandLegal s (.taket w) = true) (hw : w.toNat ≤ s.remaining)
    (hq : s.pending = .command (encode (.taket w)) :: rest) :
    ∃ t, step s = .next t ∧ Completes { s with pending := rest } t (.taket w) := by
  have hwidth := ((operandLegal_taket_iff s w).1 ho).2
  have hwf : (Instr.taket w).wellFormed = true :=
    (wellFormed_iff _).2 (hwidth.trans_lt (show 252 < 2 ^ 8 by decide))
  rw [step_encode hwf hq]
  exact exec_take_completes (.inr (.inr rfl)) hp ho (hs.withPending rest) hw

end Sys2Proof.Machine

namespace Sys2Proof
open Machine

/-- Settles O51: UNARMOR leaves the groups of the text's sixbit values, and TAKET takes them all. -/
theorem textRoundTrip : Obligations.TextRoundTrip := by
  intro text (s : State) rest h42 hcap hrange hq
  have hlength : (armorOf text).length = text.length := List.length_map _
  rw [asInputs_append, List.append_assoc] at hq
  obtain ⟨u, hrun, hinv, hp, hbits, hpos, hlen, hpending⟩ :=
    run_unarmor_whole (armorBits_armorOf hrange) (hlength.symm ▸ hcap) hq
  rw [hlength] at hrun hlen
  generalize hw : BitVec.ofNat 12 (6 * text.length) = w at hpending
  have hwidth : w.toNat = 6 * text.length := by
    rw [← hw, BitVec.toNat_ofNat]
    omega
  have ho : operandLegal u (.taket w) = true := (operandLegal_taket_iff u w).2 (by omega)
  have hremain : w.toNat ≤ u.remaining := by
    rw [State.remaining, hwidth, hlen, hpos]
    exact le_rfl
  obtain ⟨t, hstep, hc⟩ := step_taket_completes hinv hp ho hremain hpending
  have htext : t.text = text.rdropWhile (· == 64) := by
    rw [hc.taket_text ho, hbits, hpos, hwidth]
    exact decodeText_sixbitValues hrange
  obtain ⟨-, htpos⟩ := hc.take_pos (.inr (.inr rfl)) hinv.cursor
  obtain ⟨-, -, htlen, -, hphase, -⟩ := hc.take_frame (.inr (.inr rfl))
  refine ⟨t, (run_add hrun).trans (run_one hstep), hphase.trans hp, htext, ?_, ?_, ?_⟩
  · rw [hc.taket_responses, htext, List.getLast?_concat]
  · rw [htpos, hpos, hwidth]
    exact Nat.zero_add _
  · rw [htlen, hlen]

/-- Settles O32: TAKET by the checks it makes, and the full effect of one that completes. -/
theorem taketDecodesAndTrims : Obligations.TaketDecodesAndTrims := by
  intro w s hs
  have hlegal := operandLegal_taket_iff s w
  refine ⟨fun hp h6 h252 hr => ?_, fun hp hw => ?_, fun hp h6 h252 hr => ?_, fun hp => ?_⟩
  · have ho := hlegal.2 ⟨h6, h252⟩
    obtain ⟨t, ht, hc⟩ := exec_take_completes (.inr (.inr rfl)) hp ho hs hr
    obtain ⟨l, hl, hlast, hpad, x, hx, rfl⟩ := hc.fullEffect ho
    exact ⟨l, hl, hlast, hpad, x, hx, ht⟩
  · refine exec_of_illegal_operand (by simp [hp]) (by simp [legalIn, hp])
      (Bool.eq_false_iff.2 fun ho => ?_)
    obtain ⟨h6, h252⟩ := hlegal.1 ho
    omega
  · exact exec_take_insufficient (.inr (.inr rfl)) hp (hlegal.2 ⟨h6, h252⟩) hr
  · exact exec_of_illegal_phase (by simp [hp]) (by simp [legalIn, hp])

end Sys2Proof
end

section
/-!
The faults (60_exceptions.md R91 to R108): which words are illegal, what a step answers when a check of R101 fails,
and why a step that ends in FAULT has taken a fault.
-/

namespace Sys2Proof

/-- The width of the operand field of each opcode, 0 to 8 (30_encoding.md R45). -/
def opcodeFieldBits : List Nat := [0, 8, 3, 12, 0, 6, 6, 8, 6]

/-- A word is illegal exactly when its opcode is reserved or its operand does not fit the opcode's field
(30_encoding.md R47). -/
theorem decode_error_iff (w : CommandWord) :
    (∃ e, decode w = .error e) ↔
      9 ≤ (opField w).toNat ∨ 2 ^ opcodeFieldBits.getD (opField w).toNat 0 ≤ (argField w).toNat := by
  have accepted (n : Nat) (i : Instr) (e : Illegal) :
      (∃ e', (if mbzClear n (argField w) then Except.ok i else .error e) = .error e') ↔
        2 ^ n ≤ (argField w).toNat := by
    rw [← Nat.not_lt, ← mbzClear_iff]
    split <;> simp [*]
  unfold decode
  simp only
  split
  case h_10 =>
    simp only [imp_false] at *
    exact iff_of_true ⟨_, rfl⟩ (.inl (by omega))
  all_goals
    next hop =>
      rw [accepted, hop]
      simp [opcodeFieldBits]

end Sys2Proof

namespace Sys2Proof.Machine

variable {i : Instr} {s t : State} {w : CommandWord} {f : FaultCode} {info : Word} {rest : List Input}

/-- In FILL and READY an illegal word raises IllegalCommand (60_exceptions.md R96). -/
theorem step_of_illegal_word {e : Illegal} (hp : s.phase ≠ .fault) (hq : s.pending = .command w :: rest)
    (hd : decode w = .error e) :
    step s = .next ({ s with pending := rest }.raise .illegalCommand (w.setWidth 32)) := by
  rw [step_command hq, hd]
  exact if_neg hp

/-- The word that EINFO records for a decoded command is the word issued (10_state.md R15). -/
theorem commandInfo_of_decode (hd : decode w = .ok i) : commandInfo i = w.setWidth 32 := by
  rw [commandInfo, encode_of_decode hd]

/-- Outside FAULT, "legal in the phase" is "not in R97's list". -/
theorem legalIn_of_not_outOfPhase (hp : s.phase ≠ .fault) (h : ¬outOfPhase s.phase i) :
    legalIn i s.phase = true :=
  eq_true_of_ne_false fun hl => h ((legalIn_eq_false_iff i hp).1 hl)

/-- SEAL drops at most 5 bits, and no more than there are (40_armor.md R66). -/
theorem operandLegal_sealf_iff (s : State) (f : Operand) :
    operandLegal s (.sealf f) = true ↔ f.toNat ≤ 5 ∧ f.toNat ≤ 6 * s.nch.toNat := by
  simp [operandLegal, sealOperandOk]

/-- RDB reads a byte of the image (40_armor.md R68). -/
theorem operandLegal_rdb_iff (s : State) (n : Operand) :
    operandLegal s (.rdb n) = true ↔ n.toNat < (s.len.toNat + 7) / 8 :=
  decide_eq_true_iff

/-- TAKEU takes at most 32 bits (41_cursor.md R74). -/
theorem operandLegal_takeu_iff (s : State) (n : Operand) :
    operandLegal s (.takeu n) = true ↔ n.toNat ≤ 32 :=
  decide_eq_true_iff

/-- A command that leads from FILL or READY to FAULT has raised a fault. -/
theorem exec_raises (hp : s.phase ≠ .fault) (h : exec i s = .next t) (ht : t.phase = .fault) :
    ∃ f info, Raises i s f info ∧ t = s.raise f info := by
  rcases exec_next h with ⟨-, rfl⟩ | ⟨-, hp', -⟩ | ⟨-, -, hraise⟩ | ⟨-, -, hl, -, hc⟩
  · cases ht
  · exact absurd hp' hp
  · exact hraise
  · exact absurd ht (hc.status hp hl).1

/-- Only the check of the phase raises SequenceError (60_exceptions.md R97). -/
theorem Raises.legalIn_eq_false (h : Raises i s .sequenceError info) : legalIn i s.phase = false := by
  rcases h with ⟨-, -, hl⟩ | ⟨-, hf, -⟩ | ⟨-, -, ⟨-, -, hf, -⟩ | ⟨-, -, -, hf, -⟩ | ⟨-, -, hf, -⟩⟩
  · exact hl
  all_goals cases hf

/-- A command used well raises the document's two faults only (60_exceptions.md R92). -/
theorem Raises.document_fault (h : Raises i s f info) (hl : legalIn i s.phase = true)
    (ho : operandLegal s i = true) (hcap : capacityLeft s i = true) :
    f = .invalidArmorCharacter ∨ f = .insufficientBits := by
  rcases h with ⟨-, -, hl'⟩ | ⟨-, -, -, ho'⟩ |
    ⟨-, -, ⟨c, -, hf, -⟩ | ⟨c, v, rfl, -, -, -, hfull⟩ | ⟨n, -, hf, -⟩⟩
  · exact absurd hl (ne_true_of_eq_false hl')
  · exact absurd ho (ne_true_of_eq_false ho')
  · exact .inl hf
  · exact absurd (of_decide_eq_true hcap) (Nat.not_le.2 hfull)
  · exact .inr hf

end Sys2Proof.Machine

namespace Sys2Proof
open Machine

/-- Settles O46: the step answers, and each effect it can have is one of the three. -/
theorem noThirdOutcome : Obligations.NoThirdOutcome := by
  intro s w rest hs hq
  obtain ⟨t, h⟩ := step_answers hs
  cases step_effect h with
  | idle hq' | reset hq' => cases hq.symm.trans hq'
  | clr hq' =>
    cases hq.symm.trans hq'
    exact .inl ⟨.clr, _, (decode_eq_clr_iff 0).2 rfl, fun _ => rfl, h, nofun, rfl⟩
  | sticky hq' hw hp =>
    cases hq.symm.trans hq'
    exact .inr (.inr ⟨hp, hw, h⟩)
  | raises hq' _ hp hf =>
    cases hq.symm.trans hq'
    exact .inr (.inl ⟨hp, _, _, hf.ne_none, h⟩)
  | completes hq' hd _ hp hl ho hc =>
    cases hq.symm.trans hq'
    exact .inl ⟨_, t, hd, fun hp' => absurd hp' hp, h, (hc.status hp hl).1, hc.fullEffect ho⟩

/-- Settles O14: of the effects a step can have, only fault entry leads to FAULT. -/
theorem faultEntryIsPrecise : Obligations.FaultEntryIsPrecise := by
  intro s t hp h ht
  cases step_effect h with
  | idle => exact absurd ht hp
  | reset | clr => cases ht
  | sticky _ _ hp' => exact absurd hp' hp
  | raises hq _ _ hf => exact ⟨_, _, hf.ne_none, by rw [hq]; rfl⟩
  | completes _ _ _ hp' hl _ hc => exact absurd ht (hc.status hp' hl).1

/-- Settles O15, from the equation of a step in FAULT. -/
theorem faultIgnoresAllButClr : Obligations.FaultIgnoresAllButClr := fun _ _ _ => step_of_fault

/-- Settles O16, by the fields of the word and the equation of a step on an illegal word. -/
theorem illegalWordsRaiseIllegalCommand : Obligations.IllegalWordsRaiseIllegalCommand :=
  fun w => ⟨decode_error_iff w, fun _ _ _ hq hp => step_of_illegal_word hp hq⟩

/-- Settles O17: the phase check, and no other, raises SequenceError. -/
theorem sequenceErrorOutOfPhase : Obligations.SequenceErrorOutOfPhase := by
  refine fun i s hp => ⟨fun hout => ?_, fun hout t h ht herr => ?_⟩
  · exact exec_of_illegal_phase hp ((legalIn_eq_false_iff i hp).2 hout)
  · obtain ⟨f, info, hraise, rfl⟩ := exec_raises hp h ht
    obtain rfl : f = .sequenceError := herr
    exact hout ((legalIn_eq_false_iff i hp).1 hraise.legalIn_eq_false)

/-- Settles O18: each bound is the negation of the command's operand check, or of PUSHC's capacity test. -/
theorem invalidOperandAndCapacity : Obligations.InvalidOperandAndCapacity := by
  intro s
  have invalid {i : Instr} {p : Phase} (hp : s.phase = p) (hfault : p ≠ .fault) (hl : legalIn i p = true)
      (ho : ¬operandLegal s i = true) :
      exec i s = .next (s.raise .invalidOperand (commandInfo i)) :=
    exec_of_illegal_operand (hp ▸ hfault) (hp ▸ hl) (eq_false_of_ne_true ho)
  refine ⟨fun hp f hf => invalid hp nofun rfl ?_, fun hp n hn => invalid hp nofun rfl ?_,
    fun hp n hn => invalid hp nofun rfl ?_, fun hp n hn => invalid hp nofun rfl ?_,
    fun hp n hn => invalid hp nofun rfl ?_, fun hp c hc hcap => ?_⟩
  · rw [operandLegal_sealf_iff]
    omega
  · rw [operandLegal_rdb_iff]
    omega
  · rw [operandLegal_takeu_iff]
    omega
  · rw [operandLegal_takes_iff]
    omega
  · rw [operandLegal_taket_iff]
    omega
  · obtain ⟨v, hv⟩ := exists_sixbit_of_armorLegal hc
    exact exec_pushc_full hp hv hcap

/-- Settles O20: at each check, the equation of a step, or of the decoded command, that fails it. -/
theorem checksAreMadeInOrder : Obligations.ChecksAreMadeInOrder := by
  refine fun s w rest hq => ⟨fun hp hw => step_of_fault hp hq hw, fun hp =>
    ⟨fun e hd => step_of_illegal_word hp hq hd, fun i hd => ?_⟩⟩
  rw [stepRunsTheDecodedCommand s w rest i hq hd, ← commandInfo_of_decode hd]
  refine ⟨fun hout => exec_of_illegal_phase hp ((legalIn_eq_false_iff i hp).2 hout), fun hout => ?_⟩
  have hl := legalIn_of_not_outOfPhase hp hout
  refine ⟨fun ho => exec_of_illegal_operand hp hl ho, ?_, fun n hi ho hw => ?_⟩
  · rintro c rfl
    have hfill := phase_eq_fill_of_fills (.inl ⟨c, rfl⟩) hl
    refine ⟨fun hc => exec_pushc_bad hfill ((sixbit_eq_none_iff _).2 hc), fun hc hcap => ?_⟩
    obtain ⟨v, hv⟩ := exists_sixbit_of_armorLegal hc
    exact exec_pushc_full hfill hv hcap
  · exact exec_take_insufficient hi (hi.phase_eq_ready hl) ho hw

/-- Settles O22: the command answers, and what it can raise is one of the document's two faults. -/
theorem wellUsedMeetsOnlyDocumentFaults : Obligations.WellUsedMeetsOnlyDocumentFaults := by
  intro i s hs hwell hp
  simp only [wellUsed, Bool.and_eq_true] at hwell
  obtain ⟨⟨hl, ho⟩, hcap⟩ := hwell
  obtain ⟨t, h⟩ := exec_answers i hs
  refine ⟨t, h, or_iff_not_imp_left.2 fun ht => ?_⟩
  obtain ⟨f, info, hraise, rfl⟩ := exec_raises hp h (not_not.1 ht)
  exact hraise.document_fault hl ho hcap

end Sys2Proof
end

section
/-!
The reset event (70_reset_and_hazards.md R109): clearing a state puts every element to its value of 10_state.md R23,
and only the client's side of the port is kept.
-/

namespace Sys2Proof.Machine

/-- Of the state before, only what the client is still to send and the responses given are left (R63, R109). -/
theorem State.cleared_eq_reset (s : State) :
    s.cleared = { State.reset with pending := s.pending, responses := s.responses } := rfl

end Sys2Proof.Machine

namespace Sys2Proof
open Machine

/-- Settles O11: the step clears the state, and a cleared state is the reset state but for the port. -/
theorem resetEventGivesTheResetState : Obligations.ResetEventGivesTheResetState := by
  intro s rest hq
  rw [step_reset hq, State.cleared_eq_reset]

end Sys2Proof
end
